-- ==== Sys2Proof/Word.lean ====
section
/-! DEFINITION. The word types of the DES core (00_scope.md R9, R14, R17).
A bit sequence of n elements is a BitVec n. Element i of the spec's sequence, counted from the most significant
end (R14), is getMsbD i; so a register and the sequence it stands for are one value (R17, R182). -/

namespace Sys2Proof

/-- A byte: a number from 0 to 255 (R18). -/
abbrev Byte := BitVec 8

/-- A 64-bit value: bus data, key, IV, block, MSG_LEN (R9, R11). -/
abbrev Word64 := BitVec 64

/-- A Feistel half L or R (R9). -/
abbrev Half := BitVec 32

/-- A key half C or D (R9). -/
abbrev KeyHalf := BitVec 28

/-- A round key (R9). -/
abbrev RoundKey := BitVec 48

end Sys2Proof
end

