-- ==== Sys2Proof/Config.lean ====
section
/-! DEFINITION. What an implementation or its platform fixes and the spec leaves open (parameters), and the free
values of 93_implementation_defined.md. None of the opaque constants has a body, so no proof can see a value of it. -/

namespace Sys2Proof.Config

/-- The number of the last 8-byte word of the message buffer. Its type gives MSGBUF_BYTES exactly the range of
00_scope.md R10 (assumption log 2). -/
opaque lastBufferWord : Fin (2 ^ 29)

/-- MSGBUF_BYTES (R10): a multiple of 8 with 8 <= MSGBUF_BYTES <= 2^32, no particular one of them. -/
def msgbufBytes : Nat := 8 * (lastBufferWord.val + 1)

/-- The number of the 0x1000-byte page at which the platform puts the core (R11; assumption log 3). -/
opaque basePage : Nat

/-- CORE_BASE (R11): a multiple of 0x1000 chosen by the platform. -/
def coreBase : Nat := 0x1000 * basePage

/-- The free value of a MSGBUF byte that nothing has written since reset (10_state.md R47; 93 U1): an independent
draw for each reset (first argument) and each buffer offset (second), fixed until the byte is written
(assumption log 4). -/
opaque msgbufDraw : Nat → Nat → Byte

/-- The free value answered by a read of DOUT, MSG_LEN, RK or MSGBUF while BUSY = 1 (20_memory.md R96; 93 U2): the
argument numbers these reads, so each has a draw of its own (assumption log 5). -/
opaque busyReadDraw : Nat → Word64

end Sys2Proof.Config
end

