-- ==== Sys2Proof/Syntax.lean ====
section
/-! DEFINITION. The commands of the core (spec/opcode_table.json), the names of its registers, the bus transactions
of its host, and the host's assembly language (30_encoding.md R130, R131). -/

namespace Sys2Proof

/-- The commands: one constructor per row of spec/opcode_table.json (30_encoding.md R125). No command has an operand
field (R123). -/
inductive Instr where
  | nop
  | keysched
  | blkEnc
  | blkDec
  | msgEncEcb
  | msgDecEcb
  | msgEncCbc
  | msgDecCbc
  deriving DecidableEq, Repr

/-- The named registers of the register map (10_state.md section 1). -/
inductive RegName where
  | id | ctrl | status | cmd | key | iv | din | dout | msgLen
  | rk (i : Fin 16)
  deriving DecidableEq, Repr

inductive BusKind where
  | read | write
  deriving DecidableEq, Repr

/-- A bus transaction: the record (kind, addr, size, wdata) of 20_memory.md R80. A read does not use wdata. -/
structure BusTxn where
  kind : BusKind
  addr : Nat
  size : Nat
  wdata : Word64
  deriving DecidableEq, Repr

/-- The host instructions of 30_encoding.md R130. `cmdByte` is the form `.cmd 0xNN`. -/
inductive HostInstr where
  | rd (r : RegName)
  | wr (r : RegName) (v : Word64)
  | rdbuf (w : Nat)
  | wrbuf (w : Nat) (v : Word64)
  | cmd (i : Instr)
  | cmdByte (b : Byte)
  deriving DecidableEq, Repr

/-- The pseudo-instructions of 30_encoding.md R131. Which accesses one makes depends on what its reads answer:
`nextAccess` of Machine/HostPrograms.lean (assumption log 14). -/
inductive Pseudo where
  | wait
  | ack
  | run (i : Instr)
  | loadmsg (m : List Byte)
  | readmsg
  deriving DecidableEq, Repr

end Sys2Proof
end

