-- ==== Sys2Proof/Machine/Window.lean ====
section
/-! DEFINITION. The core's window on the bus (00_scope.md R11, 20_memory.md R81, R93). -/

namespace Sys2Proof

/-- The offset of a transaction in the core's window, where the core decodes its address (20_memory.md R81). -/
def BusTxn.offset? (t : BusTxn) : Option Nat :=
  if Config.coreBase ≤ t.addr ∧ t.addr - Config.coreBase < 0x1000 + Config.msgbufBytes then
    some (t.addr - Config.coreBase)
  else none

end Sys2Proof
end

