-- ==== Sys2Proof/WellFormed.lean ====
section
/-! DEFINITION. The checks on terms of Syntax.lean. -/

namespace Sys2Proof

/-- Every command is well-formed: its operands are implicit and fixed by the opcode (30_encoding.md R123). -/
def Instr.wellFormed : Instr → Bool
  | .nop => true
  | .keysched => true
  | .blkEnc => true
  | .blkDec => true
  | .msgEncEcb => true
  | .msgDecEcb => true
  | .msgEncCbc => true
  | .msgDecCbc => true

/-- A buffer word lies in MSGBUF (10_state.md R47, 30_encoding.md R130). -/
def bufferWordInRange (w : Nat) : Bool := decide (8 * w + 8 ≤ Config.msgbufBytes)

/-- A host instruction names a register or a word of the message buffer (30_encoding.md R130). -/
def HostInstr.wellFormed : HostInstr → Bool
  | .rd _ => true
  | .wr _ _ => true
  | .rdbuf w => bufferWordInRange w
  | .wrbuf w _ => bufferWordInRange w
  | .cmd i => i.wellFormed
  | .cmdByte _ => true

/-- `loadmsg m` needs len(m) <= MSGBUF_BYTES (30_encoding.md R131). -/
def Pseudo.wellFormed : Pseudo → Bool
  | .wait => true
  | .ack => true
  | .run i => i.wellFormed
  | .loadmsg m => decide (m.length ≤ Config.msgbufBytes)
  | .readmsg => true

/-- A transaction the core answers with okay: in its window (20_memory.md R81), 8 bytes wide (R82), aligned (R83). -/
def BusTxn.wellFormed (t : BusTxn) : Bool :=
  match t.offset? with
  | none => false
  | some off => t.size == 8 && off % 8 == 0

end Sys2Proof
end

