-- ==== Sys2Proof/Decode.lean ====
section
/-! DEFINITION. Decoding a command byte (30_encoding.md R120, R121, R125 to R129), the encoder after it, the printing
rule (R132), and the encodings of the host's assembly language (R130, R131). -/

namespace Sys2Proof

/-! ## The fields of the command byte (R121) -/

/-- OP = opc[3:0] (R121). -/
def opField (opc : Byte) : Nat := (opc.extractLsb' 0 4).toNat

/-- DIR = opc[4]; 1 is decrypt (R121). -/
def dirField (opc : Byte) : Bool := opc.getLsbD 4

/-- CBC = opc[5]; 1 is CBC (R121, R122). -/
def cbcField (opc : Byte) : Bool := opc.getLsbD 5

/-- RSV = opc[7:6] (R121). -/
def rsvField (opc : Byte) : Nat := (opc.extractLsb' 6 2).toNat

/-! ## The decoder -/

/-- What a command byte decodes to (R126). -/
inductive Command where
  | legal (i : Instr)
  | illegal (opc : Byte)
  deriving DecidableEq, Repr

/-- Why a command byte is illegal: the classes (a) to (d) of R127. -/
inductive IllegalClass where
  | reservedBits
  | unassignedOp
  | directionOrModeOnPlainOp
  | cbcOnBlock
  deriving DecidableEq, Repr

/-- The decoder of R126: total, one row of R125 for each command, every other byte illegal by name. Each row matches
the whole byte (mask 0xFF), so the rows are written as values. -/
def decode (opc : Byte) : Command :=
  match opc.toNat with
  | 0x00 => .legal .nop
  | 0x01 => .legal .keysched
  | 0x02 => .legal .blkEnc
  | 0x12 => .legal .blkDec
  | 0x03 => .legal .msgEncEcb
  | 0x13 => .legal .msgDecEcb
  | 0x23 => .legal .msgEncCbc
  | 0x33 => .legal .msgDecCbc
  | _ => .illegal opc

/-- The class of R127 a byte falls in, read from the fields of R121; none for a byte of R125. -/
def illegalClass (opc : Byte) : Option IllegalClass :=
  if rsvField opc ≠ 0 then some .reservedBits
  else if 4 ≤ opField opc then some .unassignedOp
  else if opField opc ≤ 1 ∧ (dirField opc = true ∨ cbcField opc = true) then some .directionOrModeOnPlainOp
  else if opField opc = 2 ∧ cbcField opc = true then some .cbcOnBlock
  else none

/-- The command byte of a word written to CMD: w[7:0]; w[63:8] is ignored (R120). -/
def commandByte (w : Word64) : Byte := w.setWidth 8

/-- The instruction read from a table word. A command is one byte and the table numbers its bits as CMD[7:0] does, so
the word is a CMD write whose bits above `nbits` are 0 (R120). -/
def decodeTableWord (nbits w : Nat) : Option Instr :=
  match decode (commandByte (BitVec.ofNat 64 (w % 2 ^ nbits))) with
  | .legal i => some i
  | .illegal _ => none

/-! ## The encoder -/

/-- The command byte of a command: the column opc of R125. -/
def encode : Instr → Byte
  | .nop => 0x00
  | .keysched => 0x01
  | .blkEnc => 0x02
  | .blkDec => 0x12
  | .msgEncEcb => 0x03
  | .msgDecEcb => 0x13
  | .msgEncCbc => 0x23
  | .msgDecCbc => 0x33

/-- The word `cmd MNEMONIC` writes to CMD: zext_64(opc) (R130). -/
def encodeWord (i : Instr) : Word64 := (encode i).setWidth 64

/-! ## Printing (R132) -/

/-- The mnemonics of R125. -/
def mnemonic : Instr → String
  | .nop => "NOP"
  | .keysched => "KEYSCHED"
  | .blkEnc => "BLK_ENC"
  | .blkDec => "BLK_DEC"
  | .msgEncEcb => "MSG_ENC_ECB"
  | .msgDecEcb => "MSG_DEC_ECB"
  | .msgEncCbc => "MSG_ENC_CBC"
  | .msgDecCbc => "MSG_DEC_CBC"

/-- One hexadecimal digit. -/
def hexDigit (n : Nat) : String :=
  ["0", "1", "2", "3", "4", "5", "6", "7", "8", "9", "A", "B", "C", "D", "E", "F"].getD n ""

/-- A command is printed by its mnemonic alone, an illegal value as `.cmd 0xNN` (R132). -/
def printCommand (opc : Byte) : String :=
  match decode opc with
  | .legal i => mnemonic i
  | .illegal b => ".cmd 0x" ++ hexDigit (b.toNat / 16) ++ hexDigit (b.toNat % 16)

/-! ## The host's assembly language (R130, R131) -/

/-- The offset of a register: the register map of 10_state.md section 1, and R130. -/
def regOffset : RegName → Nat
  | .id => 0x000
  | .ctrl => 0x008
  | .status => 0x010
  | .cmd => 0x018
  | .key => 0x020
  | .iv => 0x028
  | .din => 0x030
  | .dout => 0x038
  | .msgLen => 0x040
  | .rk i => 0x080 + 8 * i.val

/-- The register at an offset of the register page, none for a reserved offset (10_state.md section 1, R84). -/
def regAt (off : Nat) : Option RegName :=
  match off with
  | 0x000 => some .id
  | 0x008 => some .ctrl
  | 0x010 => some .status
  | 0x018 => some .cmd
  | 0x020 => some .key
  | 0x028 => some .iv
  | 0x030 => some .din
  | 0x038 => some .dout
  | 0x040 => some .msgLen
  | _ =>
    if h : 0x080 ≤ off ∧ off < 0x100 then
      if off % 8 = 0 then some (.rk ⟨(off - 0x080) / 8, by omega⟩) else none
    else none

/-- The encoding (kind, off, data) of a host instruction (R130); the data of a read is not used. -/
def hostEncoding : HostInstr → BusKind × Nat × Word64
  | .rd r => (.read, regOffset r, 0)
  | .wr r v => (.write, regOffset r, v)
  | .rdbuf w => (.read, 0x1000 + 8 * w, 0)
  | .wrbuf w v => (.write, 0x1000 + 8 * w, v)
  | .cmd i => (.write, 0x018, encodeWord i)
  | .cmdByte b => (.write, 0x018, b.setWidth 64)

/-- The transaction of a host instruction: its encoding as one 8-byte access of the window (R130, R11). -/
def hostTransaction (h : HostInstr) : BusTxn :=
  match hostEncoding h with
  | (kind, off, data) => ⟨kind, Config.coreBase + off, 8, data⟩

/-- num(m): the number of a byte sequence, most significant byte first (00_scope.md R18). -/
def numOfBytes (m : List Byte) : Nat := m.foldl (fun acc b => 256 * acc + b.toNat) 0

/-- m followed by zero bytes up to a multiple of 8 (R131, loadmsg). -/
def zeroFilled (m : List Byte) : List Byte := m ++ List.replicate ((8 - m.length % 8) % 8) 0

/-- The number of 8-byte words that hold n bytes: ceil(n / 8) (R131). -/
def wordsFor (n : Nat) : Nat := (n + 7) / 8

/-- The word writes of `loadmsg m` (R131). -/
def loadWords (m : List Byte) : List HostInstr :=
  (List.range (wordsFor m.length)).map fun w =>
    .wrbuf w (BitVec.ofNat 64 (numOfBytes (((zeroFilled m).drop (8 * w)).take 8)))

/-- The accesses of `loadmsg m`: its words, then its length (R131). -/
def loadAccesses (m : List Byte) : List HostInstr :=
  loadWords m ++ [.wr .msgLen (BitVec.ofNat 64 m.length)]

end Sys2Proof
end

