-- ==== Sys2Proof/Machine/State.lean ====
section
/-! DEFINITION. The state of the core (10_state.md), the outcomes' reason types, and the state after reset. -/

namespace Sys2Proof.Machine

/-- The error codes a command raises (60_exceptions.md R350). Success is the number 0 and raises nothing. -/
inductive ErrCode where
  | keyMissing
  | ivMissing
  | length
  | illegalCmd
  deriving DecidableEq, Repr

/-- The answer of the bus port to a transaction (20_memory.md R80). `notDecoded` is no answer of the core: the address
is outside its window and the core never sees the transaction (R81). -/
inductive Answer where
  | okay
  | okayData (rdata : Word64)
  | error
  | notDecoded
  deriving DecidableEq, Repr

/-- What may happen next: a host transaction, the core's step, a reset (00_scope.md R25, 70_reset_and_hazards.md
R390; assumption log 1). -/
inductive Turn where
  | host (t : BusTxn)
  | core
  | reset
  deriving DecidableEq, Repr

/-- Why the machine stops with a fault. -/
inductive Fault where
  /-- Raised by `hostTurn` when the core answers a host transaction with `error`: in the window, but not 8 bytes wide or
  not 8-byte aligned (20_memory.md R82, R83, R85; 60_exceptions.md R354; 93 U11: a fault of the host program).
  SAFE: the hardware goes on with its state unchanged, the model stops. -/
  | busError
  deriving DecidableEq, Repr

/-- Why the model gives a step no meaning. -/
inductive Refusal where
  /-- Raised by the refused arms of `exec` alone, for an instruction without a meaning yet (there is none now).
  SAFE: the model stops. -/
  | notModelled (mnemonic : String)
  /-- Raised by `hostTurn` for a transaction at an address outside the core's window, which the platform decides
  (20_memory.md R81; 93 U6). SAFE: the core's state does not change, the model stops. -/
  | outsideWindow
  deriving DecidableEq, Repr

/-- The message buffer's contents: (buffer offset, byte) pairs of the bytes written since reset (10_state.md R47). -/
abbrev Memory := List Host.Cell

/-- The state of the machine: the record of 10_state.md R55 field by field, then four fields of the model's own. -/
structure State where
  /-- CTRL[0], IE (R32). -/
  ctrlIe : Bool
  /-- STATUS.DONE (R35). -/
  done : Bool
  /-- STATUS.KEYV (R36). -/
  keyv : Bool
  /-- STATUS.IVV (R37). -/
  ivv : Bool
  /-- STATUS.OVR (R38). -/
  ovr : Bool
  /-- STATUS.ERR (R39). -/
  err : Fin 16
  /-- KEY (R41). -/
  key : Word64
  /-- IV (R42). -/
  iv : Word64
  /-- DIN (R43). -/
  din : Word64
  /-- DOUT (R44). -/
  dout : Word64
  /-- MSG_LEN (R45). -/
  msgLen : Word64
  /-- RK[0] to RK[15] (R46). -/
  rk : Vector RoundKey 16
  /-- MSGBUF (R47): the bytes written since reset, as (buffer offset, byte) pairs, offsets strictly rising. An offset
  that is not listed has no stored byte and reads as `Config.msgbufDraw` (93 U1; assumption log 4). -/
  msgbuf : Memory
  /-- The pending command, hidden (R49). -/
  pending : Option Byte
  /-- The model's own: how many resets have happened; selects the draws of unwritten MSGBUF bytes (log 4). -/
  epoch : Nat
  /-- The model's own: how many unspecified busy reads have been answered; selects the next draw (log 5). -/
  draws : Nat
  /-- The model's own: the turns still to come, in order; the core moves when there is none (log 1). -/
  agenda : List Turn
  /-- The model's own: the bus port's answer to the latest host transaction (log 9). -/
  answer : Option Answer
  deriving DecidableEq, Repr

/-- The machine right after reset (R54). Every register's value is the spec's; MSGBUF lists nothing (unspecified); the
model's own fields start at values the log names (assumption log 1, 4, 5, 9). -/
def State.reset : State where
  ctrlIe := false
  done := false
  keyv := false
  ivv := false
  ovr := false
  err := 0
  key := 0
  iv := 0
  din := 0
  dout := 0
  msgLen := 0
  rk := Vector.replicate 16 0
  msgbuf := []
  pending := none
  epoch := 0
  draws := 0
  agenda := []
  answer := none

end Sys2Proof.Machine
end

