-- ==== Sys2Proof/Machine/Flags.lean ====
section
/-! DEFINITION. The flags: STATUS and CTRL as words, write-1-to-clear, the error codes' numbers, the interrupt wire
(10_state.md R32 to R39, R51, R53; 20_memory.md R86, R87; 60_exceptions.md R350, R360). The core has no condition
codes (R51). -/

namespace Sys2Proof.Machine

/-- STATUS.BUSY: a command is pending (R34). -/
def busy (s : State) : Bool := s.pending.isSome

/-- The number of an error code in STATUS.ERR (R350). -/
def errValue : ErrCode → Fin 16
  | .keyMissing => 1
  | .ivMissing => 2
  | .length => 3
  | .illegalCmd => 4

/-- One bit as a 64-bit word. -/
def bitWord (b : Bool) : Word64 := (BitVec.ofBool b).setWidth 64

/-- A read of STATUS: zext_64(ERR << 8 | OVR << 4 | IVV << 3 | KEYV << 2 | DONE << 1 | BUSY) (R86). -/
def statusWord (s : State) : Word64 :=
  BitVec.ofNat 64 s.err.val <<< 8 ||| bitWord s.ovr <<< 4 ||| bitWord s.ivv <<< 3 |||
    bitWord s.keyv <<< 2 ||| bitWord s.done <<< 1 ||| bitWord (busy s)

/-- A read of CTRL: zext_64(IE) (R86). -/
def ctrlWord (s : State) : Word64 := bitWord s.ctrlIe

/-- A write of CTRL: IE <- wdata[0], accepted while busy too (R32, R95). -/
def writeCtrl (w : Word64) (s : State) : State := { s with ctrlIe := w.getLsbD 0 }

/-- A write of STATUS: bit 1 clears DONE, bit 4 clears OVR, nothing else changes; accepted while busy too (R33, R95).
It is also how a host acknowledges a completion, an error among them (R358). -/
def writeStatus (w : Word64) (s : State) : State :=
  { s with
    done := s.done && !w.getLsbD 1
    ovr := s.ovr && !w.getLsbD 4 }

/-- OVR <- 1: what a write dropped while busy leaves (R38, R95). -/
def setOverrun (s : State) : State := { s with ovr := true }

/-- The interrupt output (R53, R360). -/
def irq (s : State) : Bool := s.ctrlIe && s.done

end Sys2Proof.Machine
end

