-- ==== Sys2Proof/Machine/Ops.lean ====
section
/-! DEFINITION. The operations every command and every bus access is written with: the message buffer
(00_scope.md R19, 10_state.md R47), issue and completion (40_command_cycle.md R151, R153), the checks and the error
entry (R155, R156; 60_exceptions.md R357), reset (70_reset_and_hazards.md R390). -/

namespace Sys2Proof.Machine

/-! ## The message buffer -/

/-- The canonical form of a memory: offsets strictly rising. No entry equals what an unlisted offset reads as, because
an unlisted offset holds no byte (assumption log 4). -/
def Memory.wf : Memory → Bool
  | [] => true
  | [_] => true
  | a :: b :: rest => decide (a.1 < b.1) && Memory.wf (b :: rest)

/-- The stored byte at an offset, none where nothing has been written since reset. -/
def Memory.byteAt : Memory → Nat → Option Byte
  | [], _ => none
  | (c, v) :: rest, a => if c = a then some v else Memory.byteAt rest a

/-- Store one byte, keeping the canonical form. -/
def Memory.put : Memory → Nat → Byte → Memory
  | [], a, b => [(a, b)]
  | (c, v) :: rest, a, b =>
    if a < c then (a, b) :: (c, v) :: rest
    else if a = c then (a, b) :: rest
    else (c, v) :: Memory.put rest a b

/-- Store bytes from offset `a` upward. -/
def Memory.putAll : Memory → Nat → List Byte → Memory
  | m, _, [] => m
  | m, a, b :: bs => Memory.putAll (Memory.put m a b) (a + 1) bs

/-- MSGBUF[a]: the stored byte, or the draw of this reset for a byte nothing has written (R47; 93 U1). -/
def msgByte (s : State) (a : Nat) : Byte :=
  match Memory.byteAt s.msgbuf a with
  | some b => b
  | none => Config.msgbufDraw s.epoch a

/-- MemRead(a, n) = MSGBUF[a..a+n) (R19). -/
def memRead (s : State) (a n : Nat) : List Byte := (List.range n).map fun j => msgByte s (a + j)

/-- MemWrite(a, len(m), m): MSGBUF[a+j] <- m[j] (R19). -/
def memWrite (a : Nat) (m : List Byte) (s : State) : State := { s with msgbuf := Memory.putAll s.msgbuf a m }

/-! ## Issue -/

/-- Issue: pending <- some(wdata[7:0]), DONE <- 0, ERR <- 0, nothing else; the opcode is not checked (R151). -/
def issue (w : Word64) (s : State) : State :=
  { s with
    pending := some (commandByte w)
    done := false
    err := 0 }

/-- A write that is dropped while BUSY = 1 and then sets OVR (R95, R152). -/
def acceptWhenIdle (write : State → State) (s : State) : State :=
  if busy s then setOverrun s else write s

/-! ## Completion -/

/-- What a successful command writes beside STATUS (30_encoding.md R123, 40_command_cycle.md R153): the round-key bank,
DOUT, and for a MSG command the bytes written from buffer byte 0 and the new MSG_LEN. -/
structure Writes where
  rk : Option (Vector RoundKey 16) := none
  dout : Option Word64 := none
  msg : Option (List Byte × Nat) := none
  deriving DecidableEq, Repr

/-- "apply writes" of R153. -/
def applyWrites (w : Writes) (s : State) : State :=
  { s with
    rk := w.rk.getD s.rk
    dout := w.dout.getD s.dout
    msgbuf := match w.msg with
      | none => s.msgbuf
      | some (m, _) => Memory.putAll s.msgbuf 0 m
    msgLen := match w.msg with
      | none => s.msgLen
      | some (_, n) => BitVec.ofNat 64 n }

/-- The end of every completion: ERR <- code, DONE <- 1, pending <- none (R153). -/
def finish (code : Fin 16) (s : State) : State :=
  { s with
    err := code
    done := true
    pending := none }

/-- TAKING AN ERROR, the core's one exception (R156, R357): the completion writes ERR, DONE and pending and nothing else.
Nothing is saved and there is nothing to return from; the host acknowledges with `writeStatus` or `issue` (R358). -/
def raiseError (e : ErrCode) (s : State) : State := finish (errValue e) s

/-- Completing with success: the writes are applied and ERR <- 0 (R153, R157). -/
def succeed (w : Writes) (s : State) : State := finish 0 (applyWrites w s)

/-! ## Checks -/

/-- The checks of R155 that depend on state. -/
inductive Check where
  | keyLoaded
  | ivLoaded
  | encryptLength
  | decryptLength
  deriving DecidableEq, Repr

/-- Whether a check passes (R155, 45_padding_modes.md R306; MSG_LEN is compared as an unsigned 64-bit number, R124). -/
def checkPasses (c : Check) (s : State) : Bool :=
  match c with
  | .keyLoaded => s.keyv
  | .ivLoaded => s.ivv
  | .encryptLength => decide (s.msgLen.toNat ≤ Config.msgbufBytes)
  | .decryptLength => s.msgLen.toNat % 8 == 0 && decide (s.msgLen.toNat ≤ Config.msgbufBytes)

/-- The error a failing check raises (R155). -/
def checkError : Check → ErrCode
  | .keyLoaded => .keyMissing
  | .ivLoaded => .ivMissing
  | .encryptLength => .length
  | .decryptLength => .length

/-- The first failing check gives the error (R155, R356). -/
def firstFailure : List Check → State → Option ErrCode
  | [], _ => none
  | c :: cs, s => if checkPasses c s then firstFailure cs s else some (checkError c)

/-- The completion of a command with these checks and, when they pass, these writes (R153, R155 to R157). The writes are
computed only then: all checks come before any transformation begins. -/
def completeChecked (checks : List Check) (writes : State → Writes) (s : State) : State :=
  match firstFailure checks s with
  | some e => raiseError e s
  | none => succeed (writes s) s

/-! ## Reset and the bus port's bookkeeping -/

/-- Reset as a step of a run (R390, R391): every field of the spec takes its reset value, a pending command is abandoned,
every MSGBUF byte is unspecified anew. Of the model's own fields the agenda goes on, the draws stay used up
(assumption log 13). -/
def resetCore (s : State) : State :=
  { State.reset with
    epoch := s.epoch + 1
    draws := s.draws
    agenda := s.agenda }

/-- Use up the next draw of an unspecified busy read (R96). -/
def useDraw (s : State) : State := { s with draws := s.draws + 1 }

/-- The port answers. -/
def setAnswer (a : Answer) (s : State) : State := { s with answer := some a }

/-- The turns still to come. -/
def setAgenda (ts : List Turn) (s : State) : State := { s with agenda := ts }

end Sys2Proof.Machine
end

