-- ==== Sys2Proof/Machine/Operands.lean ====
section
/-! DEFINITION. The operands of the machine: its registers as the bus reads and writes them (10_state.md,
20_memory.md R86, R87, R95, R96). Commands have no operand forms; what each reads is fixed (30_encoding.md R123). -/

namespace Sys2Proof.Machine

/-- The constant value of ID (10_state.md R31). -/
def idValue : Word64 := 0x444553434F524507

/-- A register's value as a read returns it when the value is specified (R86). -/
def readReg (r : RegName) (s : State) : Word64 :=
  match r with
  | .id => idValue
  | .ctrl => ctrlWord s
  | .status => statusWord s
  | .cmd => 0
  | .key => s.key
  | .iv => s.iv
  | .din => s.din
  | .dout => s.dout
  | .msgLen => s.msgLen
  | .rk i => (s.rk[i.val]).setWidth 64

/-- The registers whose reads return an unspecified value while BUSY = 1 (R96). -/
def unspecifiedWhileBusy : RegName → Bool
  | .dout => true
  | .msgLen => true
  | .rk _ => true
  | .id => false
  | .ctrl => false
  | .status => false
  | .cmd => false
  | .key => false
  | .iv => false
  | .din => false

/-- KEY <- wdata, KEYV <- 1 (R41). -/
def loadKey (w : Word64) (s : State) : State := { s with key := w, keyv := true }

/-- IV <- wdata, IVV <- 1 (R42). -/
def loadIv (w : Word64) (s : State) : State := { s with iv := w, ivv := true }

/-- DIN <- wdata (R43). -/
def loadDin (w : Word64) (s : State) : State := { s with din := w }

/-- MSG_LEN <- wdata, any value (R45). -/
def loadMsgLen (w : Word64) (s : State) : State := { s with msgLen := w }

/-- A register write, idle (R87) or busy (R95). -/
def writeReg (r : RegName) (w : Word64) (s : State) : State :=
  match r with
  | .id => s
  | .ctrl => writeCtrl w s
  | .status => writeStatus w s
  | .cmd => acceptWhenIdle (issue w) s
  | .key => acceptWhenIdle (loadKey w) s
  | .iv => acceptWhenIdle (loadIv w) s
  | .din => acceptWhenIdle (loadDin w) s
  | .dout => s
  | .msgLen => acceptWhenIdle (loadMsgLen w) s
  | .rk _ => s

end Sys2Proof.Machine
end

