-- ==== Sys2Proof/Machine/Permutation.lean ====
section
/-! DEFINITION. The bit converter and the permutation engine with its six tables (41_bits_permutation.md). The tables
are the spec's, which gives them from general knowledge (93 G1; assumption log 12). -/

namespace Sys2Proof.Machine

/-! ## Bit converter -/

/-- bytes_to_bits (R180): the bits of a byte sequence, most significant first, byte 0 first, for a sequence of w / 8
bytes. Read as a number it is num(m) (00_scope.md R18). -/
def bytesToBits (w : Nat) (m : List Byte) : BitVec w := BitVec.ofNat w (numOfBytes m)

/-- bits_to_bytes (R181): byte j holds the elements 8j to 8j + 7, element 8j its most significant bit. -/
def bitsToBytes {w : Nat} (s : BitVec w) : List Byte :=
  (List.range (w / 8)).map fun j => s.extractLsb' (w - 8 - 8 * j) 8

/-! ## Permutation engine -/

/-- The number of the sequence that the entries of a table select from s, the first entry most significant. -/
def selectBits {n : Nat} (s : BitVec n) (table : List Nat) : Nat :=
  table.foldl (fun acc k => 2 * acc + (s.getMsbD (k - 1)).toNat) 0

/-- permute(s, T)@i = s@(T[i+1] - 1) for a table of m entries (R183). -/
def permute {n : Nat} (m : Nat) (table : List Nat) (s : BitVec n) : BitVec m :=
  BitVec.ofNat m (selectBits s table)

/-- A table that `permute` can use from n elements to m: m entries, each one from 1 to n (R184). Every table below is one
for the widths it is used with (`tables_fit`), so the source's fatal case has no behaviour here. -/
def tableFits (n m : Nat) (table : List Nat) : Bool :=
  table.length == m && table.all fun k => decide (1 ≤ k) && decide (k ≤ n)

/-! ## Tables -/

/-- IP (R185). -/
def tableIP : List Nat :=
  [58, 50, 42, 34, 26, 18, 10, 2,
   60, 52, 44, 36, 28, 20, 12, 4,
   62, 54, 46, 38, 30, 22, 14, 6,
   64, 56, 48, 40, 32, 24, 16, 8] ++
  [57, 49, 41, 33, 25, 17, 9, 1,
   59, 51, 43, 35, 27, 19, 11, 3,
   61, 53, 45, 37, 29, 21, 13, 5,
   63, 55, 47, 39, 31, 23, 15, 7]

/-- IP^-1 (R186). -/
def tableIPInv : List Nat :=
  [40, 8, 48, 16, 56, 24, 64, 32,
   39, 7, 47, 15, 55, 23, 63, 31,
   38, 6, 46, 14, 54, 22, 62, 30,
   37, 5, 45, 13, 53, 21, 61, 29] ++
  [36, 4, 44, 12, 52, 20, 60, 28,
   35, 3, 43, 11, 51, 19, 59, 27,
   34, 2, 42, 10, 50, 18, 58, 26,
   33, 1, 41, 9, 49, 17, 57, 25]

/-- E (R187). -/
def tableE : List Nat :=
  [32, 1, 2, 3, 4, 5,
   4, 5, 6, 7, 8, 9,
   8, 9, 10, 11, 12, 13,
   12, 13, 14, 15, 16, 17] ++
  [16, 17, 18, 19, 20, 21,
   20, 21, 22, 23, 24, 25,
   24, 25, 26, 27, 28, 29,
   28, 29, 30, 31, 32, 1]

/-- P (R188). -/
def tableP : List Nat :=
  [16, 7, 20, 21,
   29, 12, 28, 17,
   1, 15, 23, 26,
   5, 18, 31, 10,
   2, 8, 24, 14,
   32, 27, 3, 9,
   19, 13, 30, 6,
   22, 11, 4, 25]

/-- PC-1 (R189). -/
def tablePC1 : List Nat :=
  [57, 49, 41, 33, 25, 17, 9,
   1, 58, 50, 42, 34, 26, 18,
   10, 2, 59, 51, 43, 35, 27,
   19, 11, 3, 60, 52, 44, 36] ++
  [63, 55, 47, 39, 31, 23, 15,
   7, 62, 54, 46, 38, 30, 22,
   14, 6, 61, 53, 45, 37, 29,
   21, 13, 5, 28, 20, 12, 4]

/-- PC-2 (R190). -/
def tablePC2 : List Nat :=
  [14, 17, 11, 24, 1, 5,
   3, 28, 15, 6, 21, 10,
   23, 19, 12, 4, 26, 8,
   16, 7, 27, 20, 13, 2] ++
  [41, 52, 31, 37, 47, 55,
   30, 40, 51, 45, 33, 48,
   44, 49, 39, 56, 34, 53,
   46, 42, 50, 36, 29, 32]

/-- Every table with the widths it is used with: input, output (R184). -/
def tableUses : List (Nat × Nat × List Nat) :=
  [(64, 64, tableIP), (64, 64, tableIPInv), (32, 48, tableE), (32, 32, tableP), (64, 56, tablePC1), (56, 48, tablePC2)]

/-- The initial permutation (R185). -/
def permIP (s : Word64) : Word64 := permute 64 tableIP s

/-- The final permutation (R186). -/
def permIPInv (s : Word64) : Word64 := permute 64 tableIPInv s

/-- The expansion (R187). -/
def permE (s : Half) : BitVec 48 := permute 48 tableE s

/-- The permutation at the end of f; 32 bits to 32 (R188; 90 C4). -/
def permP (s : Half) : Half := permute 32 tableP s

/-- Permuted choice 1 (R189). -/
def permPC1 (s : Word64) : BitVec 56 := permute 56 tablePC1 s

/-- Permuted choice 2 (R190). -/
def permPC2 (s : BitVec 56) : RoundKey := permute 48 tablePC2 s

end Sys2Proof.Machine
end

