-- ==== Sys2Proof/Machine/KeySchedule.lean ====
section
/-! DEFINITION. The key schedule generator (42_key_schedule.md R210 to R218). -/

namespace Sys2Proof.Machine

/-- SHIFTS (R211). -/
def shifts : List Nat := [1, 1, 2, 2, 2, 2, 2, 2, 1, 2, 2, 2, 2, 2, 2, 1]

/-- rotl(h, n)@i = h@((i + n) mod 28) (R212). -/
def rotl (h : KeyHalf) (n : Nat) : KeyHalf := h.rotateLeft n

/-- C ++ D (R214). -/
def joinHalves (c d : KeyHalf) : BitVec 56 := c ++ d

/-- The loop of R214 over the shifts still to do: rotate both halves, cumulatively, and take PC-2 of C ++ D. -/
def roundKeysFrom (c d : KeyHalf) : List Nat → List RoundKey
  | [] => []
  | n :: ns => permPC2 (joinHalves (rotl c n) (rotl d n)) :: roundKeysFrom (rotl c n) (rotl d n) ns

/-- C0 = cd@[0..28) of cd = permute(k, PC1) (R214). -/
def keyC0 (k : Word64) : KeyHalf := (permPC1 k).extractLsb' 28 28

/-- D0 = cd@[28..56) (R214). -/
def keyD0 (k : Word64) : KeyHalf := (permPC1 k).extractLsb' 0 28

/-- derive_round_keys (R210, R214): rk[0] to rk[15], forward order. -/
def deriveRoundKeys (k : Word64) : List RoundKey := roundKeysFrom (keyC0 k) (keyD0 k) shifts

/-- RK[i] <- val(rk[i]) for i in 0..15 (R220): the bank that holds a list of round keys. -/
def keyBank (ks : List RoundKey) : Vector RoundKey 16 := Vector.ofFn fun i => ks.getD i.val 0

end Sys2Proof.Machine
end

