-- ==== Sys2Proof/Machine/RoundFunction.lean ====
section
/-! DEFINITION. The S-box array and the round function f (43_sbox_round_function.md). The S-boxes are the spec's, which
gives them from general knowledge (93 G1, G2; assumption log 12). -/

namespace Sys2Proof.Machine

/-- S1 (R242). -/
def sbox1 : List (List Nat) :=
  [[14, 4, 13, 1, 2, 15, 11, 8, 3, 10, 6, 12, 5, 9, 0, 7],
   [0, 15, 7, 4, 14, 2, 13, 1, 10, 6, 12, 11, 9, 5, 3, 8],
   [4, 1, 14, 8, 13, 6, 2, 11, 15, 12, 9, 7, 3, 10, 5, 0],
   [15, 12, 8, 2, 4, 9, 1, 7, 5, 11, 3, 14, 10, 0, 6, 13]]

/-- S2 (R243). -/
def sbox2 : List (List Nat) :=
  [[15, 1, 8, 14, 6, 11, 3, 4, 9, 7, 2, 13, 12, 0, 5, 10],
   [3, 13, 4, 7, 15, 2, 8, 14, 12, 0, 1, 10, 6, 9, 11, 5],
   [0, 14, 7, 11, 10, 4, 13, 1, 5, 8, 12, 6, 9, 3, 2, 15],
   [13, 8, 10, 1, 3, 15, 4, 2, 11, 6, 7, 12, 0, 5, 14, 9]]

/-- S3 (R244). -/
def sbox3 : List (List Nat) :=
  [[10, 0, 9, 14, 6, 3, 15, 5, 1, 13, 12, 7, 11, 4, 2, 8],
   [13, 7, 0, 9, 3, 4, 6, 10, 2, 8, 5, 14, 12, 11, 15, 1],
   [13, 6, 4, 9, 8, 15, 3, 0, 11, 1, 2, 12, 5, 10, 14, 7],
   [1, 10, 13, 0, 6, 9, 8, 7, 4, 15, 14, 3, 11, 5, 2, 12]]

/-- S4 (R245). -/
def sbox4 : List (List Nat) :=
  [[7, 13, 14, 3, 0, 6, 9, 10, 1, 2, 8, 5, 11, 12, 4, 15],
   [13, 8, 11, 5, 6, 15, 0, 3, 4, 7, 2, 12, 1, 10, 14, 9],
   [10, 6, 9, 0, 12, 11, 7, 13, 15, 1, 3, 14, 5, 2, 8, 4],
   [3, 15, 0, 6, 10, 1, 13, 8, 9, 4, 5, 11, 12, 7, 2, 14]]

/-- S5 (R246). -/
def sbox5 : List (List Nat) :=
  [[2, 12, 4, 1, 7, 10, 11, 6, 8, 5, 3, 15, 13, 0, 14, 9],
   [14, 11, 2, 12, 4, 7, 13, 1, 5, 0, 15, 10, 3, 9, 8, 6],
   [4, 2, 1, 11, 10, 13, 7, 8, 15, 9, 12, 5, 6, 3, 0, 14],
   [11, 8, 12, 7, 1, 14, 2, 13, 6, 15, 0, 9, 10, 4, 5, 3]]

/-- S6 (R247). -/
def sbox6 : List (List Nat) :=
  [[12, 1, 10, 15, 9, 2, 6, 8, 0, 13, 3, 4, 14, 7, 5, 11],
   [10, 15, 4, 2, 7, 12, 9, 5, 6, 1, 13, 14, 0, 11, 3, 8],
   [9, 14, 15, 5, 2, 8, 12, 3, 7, 0, 4, 10, 1, 13, 11, 6],
   [4, 3, 2, 12, 9, 5, 15, 10, 11, 14, 1, 7, 6, 0, 8, 13]]

/-- S7 (R248). -/
def sbox7 : List (List Nat) :=
  [[4, 11, 2, 14, 15, 0, 8, 13, 3, 12, 9, 7, 5, 10, 6, 1],
   [13, 0, 11, 7, 4, 9, 1, 10, 14, 3, 5, 12, 2, 15, 8, 6],
   [1, 4, 11, 13, 12, 3, 7, 14, 10, 15, 6, 8, 0, 5, 9, 2],
   [6, 11, 13, 8, 1, 4, 10, 7, 9, 5, 0, 15, 14, 2, 3, 12]]

/-- S8 (R249). -/
def sbox8 : List (List Nat) :=
  [[13, 2, 8, 4, 6, 15, 11, 1, 10, 9, 3, 14, 5, 0, 12, 7],
   [1, 15, 13, 8, 10, 3, 7, 4, 12, 5, 6, 11, 0, 14, 9, 2],
   [7, 11, 4, 1, 9, 12, 14, 2, 0, 6, 10, 13, 15, 3, 5, 8],
   [2, 1, 14, 7, 4, 10, 8, 13, 15, 12, 9, 0, 3, 5, 6, 11]]

/-- The array of eight S-boxes; box index j is the standard's S(j+1) (R240). -/
def sboxes : List (List (List Nat)) := [sbox1, sbox2, sbox3, sbox4, sbox5, sbox6, sbox7, sbox8]

/-- row = 2*b@0 + b@5, the first and the last bit (R240). -/
def sboxRow (b : BitVec 6) : Nat := 2 * (b.getMsbD 0).toNat + (b.getMsbD 5).toNat

/-- col = 8*b@1 + 4*b@2 + 2*b@3 + b@4, the middle four bits (R240). -/
def sboxCol (b : BitVec 6) : Nat :=
  8 * (b.getMsbD 1).toNat + 4 * (b.getMsbD 2).toNat + 2 * (b.getMsbD 3).toNat + (b.getMsbD 4).toNat

/-- substitute(j, b) = seq_4(S[j][row][col]), 4 bits (R240, R241). The indexes are always in range (assumption
log 17). -/
def substitute (j : Nat) (b : BitVec 6) : BitVec 4 :=
  BitVec.ofNat 4 (((sboxes.getD j []).getD (sboxRow b) []).getD (sboxCol b) 0)

/-- x@[6j..6j+6): the input of S-box j (R252). -/
def sboxInput (x : BitVec 48) (j : Nat) : BitVec 6 := x.extractLsb' (42 - 6 * j) 6

/-- The S-box stage of f: block j uses S-box j, the outputs are joined in order (R252). -/
def sboxStage (x : BitVec 48) : Half :=
  substitute 0 (sboxInput x 0) ++ substitute 1 (sboxInput x 1) ++ substitute 2 (sboxInput x 2) ++
    substitute 3 (sboxInput x 3) ++ substitute 4 (sboxInput x 4) ++ substitute 5 (sboxInput x 5) ++
    substitute 6 (sboxInput x 6) ++ substitute 7 (sboxInput x 7)

/-- f(R, K) (R252); the XOR is of equal widths (R251). -/
def roundF (r : Half) (k : RoundKey) : Half := permP (sboxStage (permE r ^^^ k))

end Sys2Proof.Machine
end

