-- ==== Sys2Proof/Machine/Feistel.lean ====
section
/-! DEFINITION. The 16-round Feistel block engine (44_feistel_block.md R270 to R277). -/

namespace Sys2Proof.Machine

/-- One round: (L, R) <- (R, xor(L, f(R, k))) (R273). -/
def feistelRound (lr : Half × Half) (k : RoundKey) : Half × Half := (lr.2, lr.1 ^^^ roundF lr.2 k)

/-- The rounds, in the order of the keys (R273). -/
def feistelRounds (lr : Half × Half) (ks : List RoundKey) : Half × Half := ks.foldl feistelRound lr

/-- L = y@[0..32), R = y@[32..64) (R272). -/
def splitBlock (y : Word64) : Half × Half := (y.extractLsb' 32 32, y.extractLsb' 0 32)

/-- R ++ L, the final swap (R274). -/
def swapJoin (lr : Half × Half) : Word64 := lr.2 ++ lr.1

/-- feistel(x, ks) (R276). -/
def feistel (x : Word64) (ks : List RoundKey) : Word64 :=
  permIPInv (swapJoin (feistelRounds (splitBlock (permIP x)) ks))

/-- des_enc(x, k) (R277). -/
def desEnc (x k : Word64) : Word64 := feistel x (deriveRoundKeys k)

/-- des_dec(x, k): the round keys in reverse order (R277). -/
def desDec (x k : Word64) : Word64 := feistel x (deriveRoundKeys k).reverse

end Sys2Proof.Machine
end

