-- ==== Sys2Proof/Machine/Modes.lean ====
section
/-! DEFINITION. The PKCS5 padder and the ECB/CBC mode multiplexer (45_padding_modes.md R300 to R311). Messages are lists
of bytes. The modes take the round keys of R214, derived once for a command (R307). -/

namespace Sys2Proof.Machine

/-! ## Padding -/

/-- pad(m): aligned messages are not padded (R301), others get p bytes of value p (R302). -/
def pad (m : List Byte) : List Byte :=
  if m.length % 8 = 0 then m
  else m ++ List.replicate (8 - m.length % 8) (BitVec.ofNat 8 (8 - m.length % 8))

/-- d[len(d)-p .. len(d)). -/
def lastBytes (p : Nat) (d : List Byte) : List Byte := d.drop (d.length - p)

/-- d ends in valid padding of p bytes: 1 <= p <= 8, d has p bytes, and the last p of them all equal p (R304). -/
def endsInPadding (p : Nat) (d : List Byte) : Bool :=
  decide (1 ≤ p) && decide (p ≤ 8) && decide (p ≤ d.length) && (lastBytes p d).all fun b => b.toNat == p

/-- unpad(d): strip valid padding, else keep d whole, the permissive policy (R304; assumption log 18). -/
def unpad (d : List Byte) : List Byte :=
  match d.getLast? with
  | none => d
  | some p => if endsInPadding p.toNat d then d.take (d.length - p.toNat) else d

/-! ## Blocks -/

/-- blocks(m): the 8-byte blocks of a message whose length is a multiple of 8. -/
def blocks : List Byte → List (List Byte)
  | b0 :: b1 :: b2 :: b3 :: b4 :: b5 :: b6 :: b7 :: rest => [b0, b1, b2, b3, b4, b5, b6, b7] :: blocks rest
  | _ => []

/-- bxor(a, b): byte-wise XOR of two blocks. -/
def bxor (a b : List Byte) : List Byte := List.zipWith (· ^^^ ·) a b

/-- enc8: one block under the round keys `ks` in forward order. -/
def enc8 (ks : List RoundKey) (b : List Byte) : List Byte := bitsToBytes (feistel (bytesToBits 64 b) ks)

/-- dec8: one block, the round keys in reverse order (R309, R277). -/
def dec8 (ks : List RoundKey) (b : List Byte) : List Byte := bitsToBytes (feistel (bytesToBits 64 b) ks.reverse)

/-! ## Modes -/

/-- ecb_enc(m, k) (R307). -/
def ecbEnc (ks : List RoundKey) (m : List Byte) : List Byte := ((blocks (pad m)).map (enc8 ks)).flatten

/-- The data ECB decryption gives before unpadding (R309, R311). -/
def ecbDecData (ks : List RoundKey) (c : List Byte) : List Byte := ((blocks c).map (dec8 ks)).flatten

/-- The loop of cbc_enc: each ciphertext block is the next `prev` (R308). -/
def cbcEncBlocks (ks : List RoundKey) (prev : List Byte) : List (List Byte) → List Byte
  | [] => []
  | b :: bs => enc8 ks (bxor b prev) ++ cbcEncBlocks ks (enc8 ks (bxor b prev)) bs

/-- cbc_enc(m, k, iv) (R308). -/
def cbcEnc (ks : List RoundKey) (iv m : List Byte) : List Byte := cbcEncBlocks ks iv (blocks (pad m))

/-- The loop of cbc_dec: the ciphertext block is the next `prev` (R310). -/
def cbcDecBlocks (ks : List RoundKey) (prev : List Byte) : List (List Byte) → List Byte
  | [] => []
  | b :: bs => bxor (dec8 ks b) prev ++ cbcDecBlocks ks b bs

/-- The data CBC decryption gives before unpadding (R310, R311). -/
def cbcDecData (ks : List RoundKey) (iv c : List Byte) : List Byte := cbcDecBlocks ks iv (blocks c)

end Sys2Proof.Machine
end

