-- ==== Sys2Proof/Machine/PlainCommands.lean ====
section
/-! DEFINITION. The two commands that do no cipher work, NOP and the illegal command, and KEYSCHED
(40_command_cycle.md R160, R161; 42_key_schedule.md R220). -/

namespace Sys2Proof.Machine

/-- NOP: no checks, no writes (R160). -/
def execNop (s : State) : Host.Outcome State Fault Refusal := .next (completeChecked [] (fun _ => {}) s)

/-- ILLEGAL(op): raise Error(4), checked before everything else (R161, R155). It is no row of the opcode table, so it is
no arm of exec; the core's step completes it (assumption log 10). -/
def completeIllegal (s : State) : State := raiseError .illegalCmd s

/-- What KEYSCHED writes: the round keys of KEY, forward order (R220). -/
def keyschedWrites (s : State) : Writes := { rk := some (keyBank (deriveRoundKeys s.key)) }

/-- KEYSCHED (R220). -/
def execKeysched (s : State) : Host.Outcome State Fault Refusal :=
  .next (completeChecked [.keyLoaded] keyschedWrites s)

end Sys2Proof.Machine
end

