-- ==== Sys2Proof/Machine/BlockCommands.lean ====
section
/-! DEFINITION. The block commands BLK_ENC and BLK_DEC (44_feistel_block.md R280, R281). -/

namespace Sys2Proof.Machine

/-- What BLK_ENC writes: RK, and DOUT <- val(feistel(seq_64(DIN), rk)) (R280). -/
def blkEncWrites (s : State) : Writes :=
  { rk := some (keyBank (deriveRoundKeys s.key))
    dout := some (feistel s.din (deriveRoundKeys s.key)) }

/-- BLK_ENC (R280). -/
def execBlkEnc (s : State) : Host.Outcome State Fault Refusal :=
  .next (completeChecked [.keyLoaded] blkEncWrites s)

/-- What BLK_DEC writes: RK in forward order, and DOUT <- val(feistel(seq_64(DIN), reverse(rk))) (R281). -/
def blkDecWrites (s : State) : Writes :=
  { rk := some (keyBank (deriveRoundKeys s.key))
    dout := some (feistel s.din (deriveRoundKeys s.key).reverse) }

/-- BLK_DEC (R281). -/
def execBlkDec (s : State) : Host.Outcome State Fault Refusal :=
  .next (completeChecked [.keyLoaded] blkDecWrites s)

end Sys2Proof.Machine
end

