-- ==== Sys2Proof/Machine/MessageCommands.lean ====
section
/-! DEFINITION. The message commands (45_padding_modes.md R311, R320 to R323). -/

namespace Sys2Proof.Machine

/-- m = MemRead(0, n) with n = MSG_LEN (R311). -/
def inputMessage (s : State) : List Byte := memRead s 0 s.msgLen.toNat

/-- bytes(IV, 8) (R322). -/
def ivBytes (s : State) : List Byte := bitsToBytes s.iv

/-- The writes of an encryption with output `out`: RK, MemWrite(0, len(out), out), MSG_LEN <- len(out) (R311). -/
def encryptionWrites (out : List Byte) (s : State) : Writes :=
  { rk := some (keyBank (deriveRoundKeys s.key))
    msg := some (out, out.length) }

/-- The writes of a decryption with data `d` before unpadding: RK, MemWrite(0, n, d), MSG_LEN <- len(unpad(d)), so that
the pad bytes stay in the buffer (R311). -/
def decryptionWrites (d : List Byte) (s : State) : Writes :=
  { rk := some (keyBank (deriveRoundKeys s.key))
    msg := some (d, (unpad d).length) }

def msgEncEcbWrites (s : State) : Writes :=
  encryptionWrites (ecbEnc (deriveRoundKeys s.key) (inputMessage s)) s

/-- MSG_ENC_ECB (R320). -/
def execMsgEncEcb (s : State) : Host.Outcome State Fault Refusal :=
  .next (completeChecked [.keyLoaded, .encryptLength] msgEncEcbWrites s)

def msgDecEcbWrites (s : State) : Writes :=
  decryptionWrites (ecbDecData (deriveRoundKeys s.key) (inputMessage s)) s

/-- MSG_DEC_ECB (R321). -/
def execMsgDecEcb (s : State) : Host.Outcome State Fault Refusal :=
  .next (completeChecked [.keyLoaded, .decryptLength] msgDecEcbWrites s)

def msgEncCbcWrites (s : State) : Writes :=
  encryptionWrites (cbcEnc (deriveRoundKeys s.key) (ivBytes s) (inputMessage s)) s

/-- MSG_ENC_CBC (R322). -/
def execMsgEncCbc (s : State) : Host.Outcome State Fault Refusal :=
  .next (completeChecked [.keyLoaded, .ivLoaded, .encryptLength] msgEncCbcWrites s)

def msgDecCbcWrites (s : State) : Writes :=
  decryptionWrites (cbcDecData (deriveRoundKeys s.key) (ivBytes s) (inputMessage s)) s

/-- MSG_DEC_CBC (R323). -/
def execMsgDecCbc (s : State) : Host.Outcome State Fault Refusal :=
  .next (completeChecked [.keyLoaded, .ivLoaded, .decryptLength] msgDecCbcWrites s)

end Sys2Proof.Machine
end

