-- ==== Sys2Proof/Machine/Dispatch.lean ====
section
/-! DEFINITION. Dispatch (40_command_cycle.md R154): one arm per command. -/

namespace Sys2Proof.Machine

def exec (i : Instr) (s : State) : Host.Outcome State Fault Refusal :=
  match i with
  | .nop => Sys2Proof.Machine.execNop s
  | .keysched => Sys2Proof.Machine.execKeysched s
  | .blkEnc => Sys2Proof.Machine.execBlkEnc s
  | .blkDec => Sys2Proof.Machine.execBlkDec s
  | .msgEncEcb => Sys2Proof.Machine.execMsgEncEcb s
  | .msgDecEcb => Sys2Proof.Machine.execMsgDecEcb s
  | .msgEncCbc => Sys2Proof.Machine.execMsgEncCbc s
  | .msgDecCbc => Sys2Proof.Machine.execMsgDecCbc s

end Sys2Proof.Machine
end

