-- ==== Sys2Proof/Machine/Bus.lean ====
section
/-! DEFINITION. The bus slave port: what the core answers to a transaction and what the transaction does to it
(20_memory.md R80 to R96). -/

namespace Sys2Proof.Machine

/-- A read that returns okay(x) with x unspecified: the next draw (R96). -/
def readUnspecified (s : State) : Answer × State := (.okayData (Config.busyReadDraw s.draws), useDraw s)

/-- An aligned 8-byte read at an offset of the register page (R84, R86, R96). -/
def readPage (off : Nat) (s : State) : Answer × State :=
  match regAt off with
  | none => (.okayData 0, s)
  | some r => if busy s && unspecifiedWhileBusy r then readUnspecified s else (.okayData (readReg r s), s)

/-- An aligned 8-byte write at an offset of the register page (R84, R87, R95). -/
def writePage (off : Nat) (w : Word64) (s : State) : Answer × State :=
  match regAt off with
  | none => (.okay, s)
  | some r => (.okay, writeReg r w s)

/-- num(MSGBUF[a..a+8)): the buffer word at buffer offset a, big-endian (R89). -/
def bufferWord (s : State) (a : Nat) : Word64 := bytesToBits 64 (memRead s a 8)

/-- A read of the buffer word at buffer offset a (R89, R96). -/
def readBuffer (a : Nat) (s : State) : Answer × State :=
  if busy s then readUnspecified s else (.okayData (bufferWord s a), s)

/-- A write of the buffer word at buffer offset a (R89, R95). -/
def writeBuffer (a : Nat) (w : Word64) (s : State) : Answer × State :=
  (.okay, acceptWhenIdle (memWrite a (bitsToBytes w)) s)

/-- An aligned 8-byte access at an offset of the window (R93). -/
def accessAt (kind : BusKind) (off : Nat) (w : Word64) (s : State) : Answer × State :=
  match kind with
  | .read => if off < 0x1000 then readPage off s else readBuffer (off - 0x1000) s
  | .write => if off < 0x1000 then writePage off w s else writeBuffer (off - 0x1000) w s

/-- A transaction: outside the window the core never sees it (R81); of another size than 8, or misaligned, it gets error
and has no effect (R82, R83, R85). -/
def busAccess (t : BusTxn) (s : State) : Answer × State :=
  match t.offset? with
  | none => (.notDecoded, s)
  | some off => if t.size = 8 ∧ off % 8 = 0 then accessAt t.kind off t.wdata s else (.error, s)

end Sys2Proof.Machine
end

