-- ==== Sys2Proof/Machine/Agents.lean ====
section
/-! DEFINITION. The steps of the two agents, and reset (00_scope.md R25, 40_command_cycle.md R153, 60_exceptions.md R354,
70_reset_and_hazards.md R390). -/

namespace Sys2Proof.Machine

/-- The core's step: complete the pending command; nothing while none is pending (R25, R153, R375). -/
def coreTurn (s : State) : Host.Outcome State Fault Refusal :=
  match s.pending with
  | none => .next s
  | some op =>
    match decode op with
    | .legal i => exec i s
    | .illegal _ => .next (completeIllegal s)

/-- A host step: one bus transaction. An error answer is a fault of the host program (R354; assumption log 6); an address
the core does not decode is the platform's (R81; assumption log 7). -/
def hostTurn (t : BusTxn) (s : State) : Host.Outcome State Fault Refusal :=
  match busAccess t s with
  | (.notDecoded, _) => .refused .outsideWindow
  | (.error, _) => .fault .busError
  | (.okay, s') => .next (setAnswer .okay s')
  | (.okayData v, s') => .next (setAnswer (.okayData v) s')

/-- One turn. -/
def takeTurn (turn : Turn) (s : State) : Host.Outcome State Fault Refusal :=
  match turn with
  | .host t => hostTurn t s
  | .core => coreTurn s
  | .reset => .next (resetCore s)

/-- The next turn: the first of the agenda, the core's when the agenda is empty (assumption log 1, 15). -/
def nextTurn (s : State) : Host.Outcome State Fault Refusal :=
  match s.agenda with
  | [] => coreTurn s
  | turn :: rest => takeTurn turn (setAgenda rest s)

/-- A command latched and the core to move next: the accepted CMD write of R151 for the word whose low bits are `w`, with
no turn before the core's (assumption log 8). -/
def latchCommand (nbits w : Nat) (s : State) : State :=
  setAgenda [] (issue (BitVec.ofNat 64 (w % 2 ^ nbits)) s)

end Sys2Proof.Machine
end

