-- ==== Sys2Proof/Machine/Step.lean ====
section
/-! DEFINITION. The step of the machine. -/

namespace Sys2Proof.Machine

/-- One step: one host access, one completion, or one reset, each atomic (20_memory.md R91). -/
def step (s : State) : Host.Outcome State Fault Refusal := nextTurn s

/-- The machine with a command byte where its next step takes its command from: `pending` (assumption log 8). -/
def State.withFetchWord (s : State) (nbits w : Nat) : State := latchCommand nbits w s

end Sys2Proof.Machine
end

