-- ==== Sys2Proof/Machine/HostPrograms.lean ====
section
/-! DEFINITION. The host's pseudo-instructions (30_encoding.md R131): the access each makes next, its end, its result, and
its run on the machine, with the core moving between its accesses (20_memory.md R91; assumption log 14). -/

namespace Sys2Proof.Machine

/-! ## The expansions -/

/-- The loop of `wait`: read STATUS, and again while bit 0 of the answer was 1 (R131). -/
def nextPoll (answers : List Answer) : Option HostInstr :=
  match answers.getLast? with
  | none => some (.rd .status)
  | some (.okayData v) => if v.getLsbD 0 then some (.rd .status) else none
  | some _ => none

/-- The reads of `readmsg`: MSG_LEN, which answers n, then the words that hold n bytes (R131). -/
def nextRead (answers : List Answer) : Option HostInstr :=
  match answers with
  | [] => some (.rd .msgLen)
  | .okayData n :: words => if words.length < wordsFor n.toNat then some (.rdbuf words.length) else none
  | _ => none

/-- The access a pseudo-instruction makes next, from the answers to those it has made; none when it has ended (R131). -/
def nextAccess (p : Pseudo) (answers : List Answer) : Option HostInstr :=
  match p with
  | .wait => nextPoll answers
  | .ack => [HostInstr.wr .status 0x12][answers.length]?
  | .run i =>
    match answers with
    | [] => some (.cmd i)
    | _ :: polls => nextPoll polls
  | .loadmsg m => (loadAccesses m)[answers.length]?
  | .readmsg => nextRead answers

/-- The bytes an answer carries, most significant first (20_memory.md R89). -/
def answerBytes : Answer → List Byte
  | .okayData v => bitsToBytes v
  | .okay => []
  | .error => []
  | .notDecoded => []

/-- The result of `readmsg`: the first n bytes of the words read, n being the answer of MSG_LEN (R131). -/
def readmsgResult (answers : List Answer) : List Byte :=
  match answers with
  | .okayData n :: words => (words.flatMap answerBytes).take n.toNat
  | _ => []

/-! ## A run on the machine -/

/-- Who moves next while a host program runs. -/
inductive Mover where
  | host
  | core
  deriving DecidableEq, Repr

/-- Where a host program stands: the machine, and the answers to the accesses made so far. -/
structure HostRun where
  state : State
  answers : List Answer
  deriving DecidableEq, Repr

/-- Go on from a next state; a fault or a refusal ends the run. -/
def andThen {α β : Type} (o : Host.Outcome α Fault Refusal) (f : α → Host.Outcome β Fault Refusal) :
    Host.Outcome β Fault Refusal :=
  match o with
  | .next a => f a
  | .fault r => .fault r
  | .refused r => .refused r

/-- One move of the host in a pseudo-instruction: its next access as a step of the machine; nothing after its end. -/
def hostMove (p : Pseudo) (r : HostRun) : Host.Outcome HostRun Fault Refusal :=
  match nextAccess p r.answers with
  | none => .next r
  | some h =>
    andThen (step (setAgenda (.host (hostTransaction h) :: r.state.agenda) r.state)) fun t =>
      .next ⟨t, r.answers ++ t.answer.toList⟩

/-- One move of the core: its step. -/
def coreMove (r : HostRun) : Host.Outcome HostRun Fault Refusal :=
  andThen (step (setAgenda (.core :: r.state.agenda) r.state)) fun t => .next ⟨t, r.answers⟩

/-- One move under a schedule. -/
def move (p : Pseudo) (m : Mover) (r : HostRun) : Host.Outcome HostRun Fault Refusal :=
  match m with
  | .host => hostMove p r
  | .core => coreMove r

/-- A pseudo-instruction run under a schedule, from the answers it has had. -/
def runPseudo (p : Pseudo) (schedule : List Mover) (r : HostRun) : Host.Outcome HostRun Fault Refusal :=
  match schedule with
  | [] => .next r
  | m :: ms => andThen (move p m r) (runPseudo p ms)

/-- The pseudo-instruction has ended. -/
def ended (p : Pseudo) (r : HostRun) : Bool := (nextAccess p r.answers).isNone

end Sys2Proof.Machine
end

