-- ==== Sys2Proof/Safety.lean ====
section
/-! DEFINITION. What claims call a good state, a good access and a good run. -/

namespace Sys2Proof.Machine

/-- What holds in every state the machine can reach from reset. -/
structure StateInv (s : State) : Prop where
  /-- While BUSY = 1, DONE is 0 (10_state.md R35) and ERR is still the 0 of the issue (R39). -/
  busyClear : s.pending ≠ none → s.done = false ∧ s.err = 0
  /-- ERR is never a reserved code (R39). -/
  errNamed : s.err.val ≤ 4
  /-- KEYV = 0 means that no KEY has been written since reset, and then no command has derived or ciphered (R36). -/
  keyUnset : s.keyv = false → s.key = 0 ∧ s.dout = 0 ∧ s.rk = Vector.replicate 16 0
  /-- IVV = 0 means that no IV has been written since reset (R37). -/
  ivUnset : s.ivv = false → s.iv = 0
  /-- The memory is in its canonical form. -/
  memoryWf : Memory.wf s.msgbuf = true
  /-- Only bytes of MSGBUF are stored (R47). -/
  memoryInside : ∀ c ∈ s.msgbuf, c.1 < Config.msgbufBytes

/-- What the core's step reads to complete a command, `pending` apart (40_command_cycle.md R158). -/
structure SameInputs (s t : State) : Prop where
  key : t.key = s.key
  keyv : t.keyv = s.keyv
  iv : t.iv = s.iv
  ivv : t.ivv = s.ivv
  din : t.din = s.din
  msgLen : t.msgLen = s.msgLen
  buffer : ∀ a, msgByte t a = msgByte s a

/-- What a command writes (30_encoding.md R123, 40_command_cycle.md R153). -/
structure SameResults (s t : State) : Prop where
  rk : t.rk = s.rk
  dout : t.dout = s.dout
  msgLen : t.msgLen = s.msgLen
  buffer : ∀ a, msgByte t a = msgByte s a
  err : t.err = s.err
  done : t.done = s.done
  pending : t.pending = s.pending

/-- The step in which the transaction `x` is the next turn, before the turns of `s`. -/
def accessStep (x : BusTxn) (s : State) : Host.Outcome State Fault Refusal := step (setAgenda (.host x :: s.agenda) s)

/-- The step in which the host instruction `h` is the next turn (30_encoding.md R130: one bus transaction). -/
def hostStep (h : HostInstr) (s : State) : Host.Outcome State Fault Refusal := accessStep (hostTransaction h) s

/-- The step in which the core moves next, before the turns of `s` (40_command_cycle.md R153). -/
def coreStep (s : State) : Host.Outcome State Fault Refusal := step (setAgenda (.core :: s.agenda) s)

/-- The step in which the reset input resets the core (70_reset_and_hazards.md R390). -/
def resetStep (s : State) : Host.Outcome State Fault Refusal := step (setAgenda (.reset :: s.agenda) s)

/-- Only host accesses are to come, each one the core answers with okay (20_memory.md R81 to R83). -/
def onlyOkayHost (ts : List Turn) : Prop := ∀ turn ∈ ts, ∃ t : BusTxn, turn = .host t ∧ t.wellFormed = true

/-- A register whose write is dropped while BUSY = 1 (20_memory.md R95). -/
def droppedWhileBusy : RegName → Bool
  | .cmd => true
  | .key => true
  | .iv => true
  | .din => true
  | .msgLen => true
  | .id => false
  | .ctrl => false
  | .status => false
  | .dout => false
  | .rk _ => false

/-- The access keeps clear of the hazards of 70_reset_and_hazards.md R400 and R402 at a moment when BUSY = 1: it reads no
result and writes no input. -/
def avoidsBusyHazards (t : BusTxn) : Bool :=
  match t.offset? with
  | none => false
  | some off =>
    if 0x1000 ≤ off then false
    else match regAt off, t.kind with
      | none, _ => true
      | some r, .read => !unspecifiedWhileBusy r
      | some r, .write => !droppedWhileBusy r

end Sys2Proof.Machine
end

