-- ==== Sys2Proof/Certificates/Slice0/Obligations.lean ====
section
/-! DEFINITION. The statements for the provers, in the order of OBLIGATIONS.json. -/

open Sys2Proof Sys2Proof.Machine

/-! ## Reset and the step -/

/-- R54: what reset leaves. Nothing is stored in MSGBUF, so every byte of it is unspecified. -/
def Obligations.ResetLeavesEveryRegisterClear : Prop :=
  readReg .id State.reset = 0x444553434F524507 ∧ State.reset.ctrlIe = false ∧ readReg .ctrl State.reset = 0 ∧
  busy State.reset = false ∧ State.reset.done = false ∧ State.reset.keyv = false ∧ State.reset.ivv = false ∧
  State.reset.ovr = false ∧ State.reset.err = 0 ∧ readReg .status State.reset = 0 ∧
  State.reset.key = 0 ∧ State.reset.iv = 0 ∧ State.reset.din = 0 ∧ State.reset.dout = 0 ∧ State.reset.msgLen = 0 ∧
  (∀ i : Fin 16, State.reset.rk[i] = 0) ∧ State.reset.pending = none ∧
  (∀ a, Memory.byteAt State.reset.msgbuf a = none) ∧ irq State.reset = false

/-- The invariant of Safety.lean holds at reset. -/
def Obligations.ResetMeetsTheInvariant : Prop := StateInv State.reset

/-- The invariant of Safety.lean is kept by every step, from every state that meets it: the memory's canonical form and
range, no reserved error code, DONE and ERR clear while busy, and nothing derived from a key or IV never written. -/
def Obligations.EveryStepKeepsTheInvariant : Prop := ∀ s t : State, StateInv s → step s = .next t → StateInv t

/-- R390, R391: reset at any time gives every field of the spec its reset value, every MSGBUF byte is unspecified (nothing
is stored; the draws are those of a later reset, log 4 and 13), and a pending command never completes. -/
def Obligations.ResetAbandonsThePendingCommand : Prop :=
  ∀ s : State, ∃ t, resetStep s = .next t ∧
    t = { State.reset with epoch := t.epoch, draws := s.draws, agenda := s.agenda } ∧
    t.epoch ≠ s.epoch ∧ t.pending = none ∧ t.done = false ∧ irq t = false ∧
    (∀ a, Memory.byteAt t.msgbuf a = none) ∧ coreStep t = .next t

/-- A step of the core runs the command its decoder reads from the pending byte, at the head of the agenda and, by the
model's choice (log 1), when the agenda is empty; with nothing pending it changes nothing. -/
def Obligations.CoreStepRunsTheDecodedCommand : Prop :=
  ∀ s : State,
    (∀ op i, s.pending = some op → decode op = .legal i →
      (s.agenda = [] → step s = exec i s) ∧
      (∀ rest, s.agenda = .core :: rest → step s = exec i (setAgenda rest s)) ∧ coreStep s = exec i s) ∧
    (∀ op b, s.pending = some op → decode op = .illegal b →
      coreStep s = .next { s with err := 4, done := true, pending := none }) ∧
    (s.pending = none → coreStep s = .next s ∧ (s.agenda = [] → step s = .next s))

/-- The model's stand-in for the accepted CMD write (log 8): a word that the decoder reads as command i is the command
the very next step runs. -/
def Obligations.LatchedWordRunsAsTheNextStep : Prop :=
  ∀ (s : State) (nbits w : Nat) (i : Instr), decodeTableWord nbits w = some i →
    step (s.withFetchWord nbits w) = exec i (s.withFetchWord nbits w) ∧
    s.withFetchWord nbits w =
      { s with
        pending := some (BitVec.ofNat 8 (w % 2 ^ nbits))
        done := false
        err := 0
        agenda := [] }

/-! ## Encoding -/

/-- R125: the eight command bytes and their commands; every other byte is illegal; bits 63:8 of a command word play no
part. -/
def Obligations.CommandBytesOfTheOpcodeMap : Prop :=
  decode 0x00 = .legal .nop ∧ decode 0x01 = .legal .keysched ∧ decode 0x02 = .legal .blkEnc ∧
  decode 0x12 = .legal .blkDec ∧ decode 0x03 = .legal .msgEncEcb ∧ decode 0x13 = .legal .msgDecEcb ∧
  decode 0x23 = .legal .msgEncCbc ∧ decode 0x33 = .legal .msgDecCbc ∧
  (∀ b : Byte, b ∉ [0x00, 0x01, 0x02, 0x12, 0x03, 0x13, 0x23, 0x33] → decode b = .illegal b) ∧
  ∀ w : Word64, commandByte w = w.extractLsb' 0 8

/-- R120: a word written to CMD decodes to a command exactly when its low byte is the command's opcode, and two words
that agree in bits 7:0 do the same to an idle core. -/
def Obligations.OnlyTheLowByteOfACommandWordCounts : Prop :=
  (∀ (w : Word64) (i : Instr), decode (commandByte w) = .legal i ↔ w.toNat % 256 = (encode i).toNat) ∧
  ∀ (s : State) (v w : Word64), v.toNat % 256 = w.toNat % 256 → s.pending = none →
    hostStep (.wr .cmd v) s = hostStep (.wr .cmd w) s

/-- R127: the four classes of illegal bytes and their sizes; an illegal byte is accepted like any other and completes with
ERR = 4 and DONE set, and with no other effect. -/
def Obligations.IllegalBytesFallInFourClasses : Prop :=
  (∀ b : Byte, illegalClass b ≠ none ↔ decode b = .illegal b) ∧
  (∀ b : Byte, illegalClass b = some .reservedBits ↔ rsvField b ≠ 0) ∧
  (∀ b : Byte, illegalClass b = some .unassignedOp ↔ rsvField b = 0 ∧ 4 ≤ opField b) ∧
  ((List.range 256).countP (fun n => illegalClass (BitVec.ofNat 8 n) == some .reservedBits) = 192) ∧
  ((List.range 256).countP (fun n => illegalClass (BitVec.ofNat 8 n) == some .unassignedOp) = 48) ∧
  (∀ b : Byte, illegalClass b = some .directionOrModeOnPlainOp ↔ b ∈ [0x10, 0x20, 0x30, 0x11, 0x21, 0x31]) ∧
  (∀ b : Byte, illegalClass b = some .cbcOnBlock ↔ b ∈ [0x22, 0x32]) ∧
  (∀ (s : State) (w : Word64), s.pending = none → ∃ t, hostStep (.wr .cmd w) s = .next t ∧ t.pending = some (commandByte w)) ∧
  ∀ (s : State) (b : Byte), s.pending = some b → decode b = .illegal b →
    coreStep s = .next { s with err := 4, done := true, pending := none }

/-- R130: a host instruction is one transaction, with the encoding and the offsets of the rule; well-formed, it is an
access the core answers with okay. -/
def Obligations.HostInstructionsAreSingleAccesses : Prop :=
  (∀ h : HostInstr, h.wellFormed = true → (hostTransaction h).wellFormed = true) ∧
  (∀ r, hostTransaction (.rd r) = ⟨.read, Config.coreBase + regOffset r, 8, 0⟩) ∧
  (∀ r v, hostTransaction (.wr r v) = ⟨.write, Config.coreBase + regOffset r, 8, v⟩) ∧
  (∀ w, hostTransaction (.rdbuf w) = ⟨.read, Config.coreBase + (0x1000 + 8 * w), 8, 0⟩) ∧
  (∀ w v, hostTransaction (.wrbuf w v) = ⟨.write, Config.coreBase + (0x1000 + 8 * w), 8, v⟩) ∧
  (∀ i, hostTransaction (.cmd i) = ⟨.write, Config.coreBase + 0x018, 8, (encode i).setWidth 64⟩) ∧
  (∀ b, hostTransaction (.cmdByte b) = ⟨.write, Config.coreBase + 0x018, 8, b.setWidth 64⟩) ∧
  (∀ i, hostTransaction (.cmd i) = hostTransaction (.cmdByte (encode i))) ∧
  [RegName.id, .ctrl, .status, .cmd, .key, .iv, .din, .dout, .msgLen].map regOffset =
    [0x000, 0x008, 0x010, 0x018, 0x020, 0x028, 0x030, 0x038, 0x040] ∧
  (∀ i : Fin 16, regOffset (.rk i) = 0x080 + 8 * i.val) ∧ (∀ r r', regOffset r = regOffset r' → r = r')

/-! ## The commands: completion and result -/

/-- R160: NOP completes in every state, a key loaded or not, and changes ERR, DONE and pending alone; with the rule's
example: issued at reset and completed, it leaves STATUS = 2 and changes nothing else. -/
def Obligations.NopCompletesWithoutAKey : Prop :=
  decode 0x00 = .legal .nop ∧
  (∀ s : State, exec .nop s = .next { s with err := 0, done := true, pending := none }) ∧
  ∃ t u : State, hostStep (.cmd .nop) State.reset = .next t ∧ coreStep t = .next u ∧ statusWord u = 2 ∧
    u = { State.reset with done := true, answer := some .okay }

/-- R220: KEYSCHED with a key loaded completes with RK[i] = round key i of KEY, forward order. -/
def Obligations.KeyschedFillsTheBank : Prop :=
  ∀ s : State, s.keyv = true → ∃ bank : Vector RoundKey 16,
    exec .keysched s = .next { s with rk := bank, err := 0, done := true, pending := none } ∧
    bank.toList = deriveRoundKeys s.key

/-- R280: BLK_ENC with a key loaded completes with DOUT the encryption of DIN and RK the schedule. -/
def Obligations.BlkEncEnciphersDin : Prop :=
  ∀ s : State, s.keyv = true → ∃ bank : Vector RoundKey 16,
    exec .blkEnc s =
      .next { s with rk := bank, dout := desEnc s.din s.key, err := 0, done := true, pending := none } ∧
    bank.toList = deriveRoundKeys s.key

/-- R281: BLK_DEC with a key loaded completes with DOUT the decryption of DIN and RK the schedule in forward order. -/
def Obligations.BlkDecDeciphersDin : Prop :=
  ∀ s : State, s.keyv = true → ∃ bank : Vector RoundKey 16,
    exec .blkDec s =
      .next { s with rk := bank, dout := desDec s.din s.key, err := 0, done := true, pending := none } ∧
    bank.toList = deriveRoundKeys s.key

/-- R320, R311: MSG_ENC_ECB with a key loaded and MSG_LEN <= MSGBUF_BYTES completes; the ciphertext of the padded message
stands from buffer byte 0, the bytes after it are untouched, MSG_LEN is the padded length. -/
def Obligations.MsgEncEcbEnciphersTheBuffer : Prop :=
  ∀ s : State, s.keyv = true → s.msgLen.toNat ≤ Config.msgbufBytes → ∃ t : State,
    exec .msgEncEcb s = .next t ∧
    (∀ a, msgByte t a = if a < (pad (inputMessage s)).length
      then (ecbEnc (deriveRoundKeys s.key) (inputMessage s)).getD a 0 else msgByte s a) ∧
    t.msgLen.toNat = (pad (inputMessage s)).length ∧ t.rk.toList = deriveRoundKeys s.key ∧
    t = { s with msgbuf := t.msgbuf, msgLen := t.msgLen, rk := t.rk, err := 0, done := true, pending := none }

/-- R321, R311: MSG_DEC_ECB with a key loaded, MSG_LEN <= MSGBUF_BYTES and a multiple of 8 completes; the decrypted data
stands whole in MSGBUF[0..n), the bytes after it are untouched, MSG_LEN is the unpadded length. -/
def Obligations.MsgDecEcbDeciphersTheBuffer : Prop :=
  ∀ s : State, s.keyv = true → s.msgLen.toNat ≤ Config.msgbufBytes → s.msgLen.toNat % 8 = 0 → ∃ t : State,
    exec .msgDecEcb s = .next t ∧
    (∀ a, msgByte t a = if a < s.msgLen.toNat
      then (ecbDecData (deriveRoundKeys s.key) (inputMessage s)).getD a 0 else msgByte s a) ∧
    t.msgLen.toNat = (unpad (ecbDecData (deriveRoundKeys s.key) (inputMessage s))).length ∧
    t.rk.toList = deriveRoundKeys s.key ∧
    t = { s with msgbuf := t.msgbuf, msgLen := t.msgLen, rk := t.rk, err := 0, done := true, pending := none }

/-- R322, R311: MSG_ENC_CBC with a key and an IV loaded and MSG_LEN <= MSGBUF_BYTES completes, chaining from IV. -/
def Obligations.MsgEncCbcEnciphersTheBuffer : Prop :=
  ∀ s : State, s.keyv = true → s.ivv = true → s.msgLen.toNat ≤ Config.msgbufBytes → ∃ t : State,
    exec .msgEncCbc s = .next t ∧
    (∀ a, msgByte t a = if a < (pad (inputMessage s)).length
      then (cbcEnc (deriveRoundKeys s.key) (ivBytes s) (inputMessage s)).getD a 0 else msgByte s a) ∧
    t.msgLen.toNat = (pad (inputMessage s)).length ∧ t.rk.toList = deriveRoundKeys s.key ∧
    t = { s with msgbuf := t.msgbuf, msgLen := t.msgLen, rk := t.rk, err := 0, done := true, pending := none }

/-- R323, R311: MSG_DEC_CBC with a key and an IV loaded, MSG_LEN <= MSGBUF_BYTES and a multiple of 8 completes. -/
def Obligations.MsgDecCbcDeciphersTheBuffer : Prop :=
  ∀ s : State, s.keyv = true → s.ivv = true → s.msgLen.toNat ≤ Config.msgbufBytes → s.msgLen.toNat % 8 = 0 →
    ∃ t : State, exec .msgDecCbc s = .next t ∧
    (∀ a, msgByte t a = if a < s.msgLen.toNat
      then (cbcDecData (deriveRoundKeys s.key) (ivBytes s) (inputMessage s)).getD a 0 else msgByte s a) ∧
    t.msgLen.toNat = (unpad (cbcDecData (deriveRoundKeys s.key) (ivBytes s) (inputMessage s))).length ∧
    t.rk.toList = deriveRoundKeys s.key ∧
    t = { s with msgbuf := t.msgbuf, msgLen := t.msgLen, rk := t.rk, err := 0, done := true, pending := none }

/-- R155, R156: the checks in their order, the first failing one giving the code, and the failed command's completion
writing ERR, DONE and pending alone. -/
def Obligations.FirstFailingCheckGivesTheError : Prop :=
  ∀ s : State,
    (∀ op b, s.pending = some op → decode op = .illegal b →
      coreStep s = .next { s with err := 4, done := true, pending := none }) ∧
    (∀ i : Instr, i ≠ .nop → s.keyv = false →
      exec i s = .next { s with err := 1, done := true, pending := none }) ∧
    (∀ i : Instr, i = .msgEncCbc ∨ i = .msgDecCbc → s.keyv = true → s.ivv = false →
      exec i s = .next { s with err := 2, done := true, pending := none }) ∧
    (s.keyv = true → Config.msgbufBytes < s.msgLen.toNat →
      exec .msgEncEcb s = .next { s with err := 3, done := true, pending := none } ∧
      exec .msgDecEcb s = .next { s with err := 3, done := true, pending := none } ∧
      (s.ivv = true → exec .msgEncCbc s = .next { s with err := 3, done := true, pending := none } ∧
        exec .msgDecCbc s = .next { s with err := 3, done := true, pending := none })) ∧
    (s.keyv = true → s.msgLen.toNat % 8 ≠ 0 →
      exec .msgDecEcb s = .next { s with err := 3, done := true, pending := none } ∧
      (s.ivv = true → exec .msgDecCbc s = .next { s with err := 3, done := true, pending := none }))

/-! ## The commands: frames -/

/-- Frame of NOP, KEYSCHED, BLK_ENC, BLK_DEC. All of them may write ERR and DONE and end the pending command; KEYSCHED
and the BLK commands may write RK, the BLK commands may write DOUT; every other register and flag and every byte of
MSGBUF is unchanged. -/
def Obligations.FrameOfPlainAndBlockCommands : Prop :=
  ∀ (i : Instr) (s t : State), i ∈ [Instr.nop, .keysched, .blkEnc, .blkDec] → exec i s = .next t →
    t.ctrlIe = s.ctrlIe ∧ t.keyv = s.keyv ∧ t.ivv = s.ivv ∧ t.ovr = s.ovr ∧
    t.key = s.key ∧ t.iv = s.iv ∧ t.din = s.din ∧ t.msgLen = s.msgLen ∧ (∀ a, msgByte t a = msgByte s a) ∧
    (i = .nop → t.rk = s.rk) ∧ (i = .nop ∨ i = .keysched → t.dout = s.dout)

/-- Frame of the MSG commands. They may write RK, MSG_LEN, ERR, DONE and end the pending command. Every other register
and flag is unchanged, and so is every byte of MSGBUF outside the stored bytes: from buffer byte 0, as many as the
padded message has for an encryption and as the message has for a decryption. A failed command stores nothing. -/
def Obligations.FrameOfMessageCommands : Prop :=
  ∀ (i : Instr) (s t : State), i ∈ [Instr.msgEncEcb, .msgDecEcb, .msgEncCbc, .msgDecCbc] → exec i s = .next t →
    t.ctrlIe = s.ctrlIe ∧ t.keyv = s.keyv ∧ t.ivv = s.ivv ∧ t.ovr = s.ovr ∧
    t.key = s.key ∧ t.iv = s.iv ∧ t.din = s.din ∧ t.dout = s.dout ∧
    (∀ a, (i = .msgEncEcb ∨ i = .msgEncCbc → (pad (inputMessage s)).length ≤ a) →
      (i = .msgDecEcb ∨ i = .msgDecCbc → s.msgLen.toNat ≤ a) → msgByte t a = msgByte s a) ∧
    (t.err ≠ 0 → (∀ a, msgByte t a = msgByte s a) ∧ t.msgLen = s.msgLen ∧ t.rk = s.rk)

/-! ## Whole-machine rules -/

/-- R46: the bank changes only at reset or when the core completes, without error, a command other than NOP; it then holds
the schedule of KEY in forward order. -/
def Obligations.BankChangesOnlyByASuccessfulDerivation : Prop :=
  ∀ s t : State, step s = .next t → t.rk ≠ s.rk →
    s.agenda.head? = some .reset ∨
    ((s.agenda.head? = some .core ∨ s.agenda = []) ∧ t.err = 0 ∧ s.keyv = true ∧
      (∃ op i, s.pending = some op ∧ decode op = .legal i ∧ i ≠ .nop) ∧ t.rk.toList = deriveRoundKeys s.key)

/-- R44: DOUT changes only at reset or when the core completes BLK_ENC or BLK_DEC with success. -/
def Obligations.DoutChangesOnlyByASuccessfulBlockCommand : Prop :=
  ∀ s t : State, step s = .next t → t.dout ≠ s.dout →
    s.agenda.head? = some .reset ∨
    ((s.agenda.head? = some .core ∨ s.agenda = []) ∧ t.err = 0 ∧
      (s.pending = some 0x02 ∨ s.pending = some 0x12))

/-- R393: only reset clears KEYV and IVV. -/
def Obligations.OnlyResetClearsKeyvAndIvv : Prop :=
  ∀ s t : State, step s = .next t → s.agenda.head? ≠ some .reset →
    (s.keyv = true → t.keyv = true) ∧ (s.ivv = true → t.ivv = true)

/-- R41 to R43, R95: KEY, IV and DIN change only at reset or by a host write to that register while no command is
pending, and then hold the written word. -/
def Obligations.InputRegistersChangeOnlyByIdleWrites : Prop :=
  ∀ s t : State, step s = .next t → s.agenda.head? ≠ some .reset →
    (t.key ≠ s.key → s.pending = none ∧ s.agenda.head? = some (.host (hostTransaction (.wr .key t.key)))) ∧
    (t.iv ≠ s.iv → s.pending = none ∧ s.agenda.head? = some (.host (hostTransaction (.wr .iv t.iv)))) ∧
    (t.din ≠ s.din → s.pending = none ∧ s.agenda.head? = some (.host (hostTransaction (.wr .din t.din))))

/-- R38: OVR is set only by a write dropped while busy, and cleared only by a STATUS write with bit 4 set or by reset. -/
def Obligations.OverrunIsSticky : Prop :=
  ∀ s t : State, step s = .next t →
    (s.ovr = true → t.ovr = false → s.agenda.head? = some .reset ∨
      ∃ v : Word64, v.getLsbD 4 = true ∧ s.agenda.head? = some (.host (hostTransaction (.wr .status v)))) ∧
    (s.ovr = false → t.ovr = true → s.pending ≠ none ∧
      ∃ x : BusTxn, x.kind = .write ∧ s.agenda.head? = some (.host x) ∧
        t = { setAgenda s.agenda.tail s with ovr := true, answer := some .okay })

/-- R360: irq = IE AND DONE in every state; every completion of a command, failed or not, sets DONE; and a raised irq falls
only by a W1C of DONE, an accepted CMD write, a CTRL write that clears IE, or reset. -/
def Obligations.InterruptFollowsEnableAndDone : Prop :=
  (∀ s : State, irq s = true ↔ s.ctrlIe = true ∧ s.done = true) ∧
  (∀ s t : State, s.pending ≠ none → coreStep s = .next t → t.done = true ∧ irq t = s.ctrlIe) ∧
  (∀ s t : State, step s = .next t → irq s = true → irq t = false →
    s.agenda.head? = some .reset ∨
    ∃ v : Word64,
      (v.getLsbD 1 = true ∧ s.agenda.head? = some (.host (hostTransaction (.wr .status v)))) ∨
      (s.pending = none ∧ s.agenda.head? = some (.host (hostTransaction (.wr .cmd v)))) ∨
      (v.getLsbD 0 = false ∧ s.agenda.head? = some (.host (hostTransaction (.wr .ctrl v)))))

/-- R95, R100: no host access changes the inputs of a pending command, the command, or the results of the last one. -/
def Obligations.PendingCommandSeesFrozenInputs : Prop :=
  ∀ (s t : State) (x : BusTxn), s.pending ≠ none → accessStep x s = .next t →
    SameInputs s t ∧ t.pending = s.pending ∧ t.rk = s.rk ∧ t.dout = s.dout

/-- R158, R159: whatever accesses the host makes before the completion, however many, the command completes with the
results an immediate completion gives, and it does complete. That the core moves when the agenda is empty, and that the
agenda is finite, are the model's choices (log 1 and 15). -/
def Obligations.CompletionTimeDoesNotChangeTheResult : Prop :=
  ∀ (s : State) (ts : List Turn), s.pending ≠ none → onlyOkayHost ts → ∃ u v : State,
    Sys2Proof.core.run (ts.length + 1) (setAgenda ts s) = .next u ∧ coreStep s = .next v ∧ SameResults v u ∧
    u.pending = none

/-- R400, R402: an access that reads no result and writes no input while a command is pending uses no draw and does not set
OVR. The draw counter is the model's own form of an unspecified read (log 5). -/
def Obligations.CarefulHostMeetsNoHazard : Prop :=
  ∀ (s t : State) (x : BusTxn), s.pending ≠ none → avoidsBusyHazards x = true → accessStep x s = .next t →
    t.draws = s.draws ∧ (t.ovr = true → s.ovr = true)

/-! ## The bus -/

/-- R82, R83, R85: an access in the window that is not 8 bytes wide or not aligned gets error and changes nothing, and is a
fault of the host program; every other access in the window is answered with okay. An address outside the window the
core never sees (R81); the model refuses it by name (log 7). -/
def Obligations.BusErrorsExactlyForWrongWidthOrAlignment : Prop :=
  ∀ (s : State) (kind : BusKind) (off size : Nat) (w : Word64),
    (off < 0x1000 + Config.msgbufBytes → size ≠ 8 ∨ off % 8 ≠ 0 →
      busAccess ⟨kind, Config.coreBase + off, size, w⟩ s = (.error, s) ∧
      accessStep ⟨kind, Config.coreBase + off, size, w⟩ s = .fault .busError) ∧
    (off < 0x1000 + Config.msgbufBytes → size = 8 → off % 8 = 0 →
      ∃ t, accessStep ⟨kind, Config.coreBase + off, size, w⟩ s = .next t) ∧
    (∀ addr, addr < Config.coreBase ∨ Config.coreBase + 0x1000 + Config.msgbufBytes ≤ addr →
      busAccess ⟨kind, addr, size, w⟩ s = (.notDecoded, s) ∧
      accessStep ⟨kind, addr, size, w⟩ s = .refused .outsideWindow)

/-- R86, R92: a read changes no state of the spec's anywhere in the window. (The model's own fields alone move: the answer,
and the draw counter for an unspecified value.) -/
def Obligations.ReadsHaveNoSideEffects : Prop :=
  ∀ (s t : State) (x : BusTxn), x.kind = .read → accessStep x s = .next t →
    t = { s with answer := t.answer, draws := t.draws } ∧ (s.pending = none → t.draws = s.draws ∧ accessStep x t = .next t)

/-- R86: the value of every register read, and that it changes no state of the spec's; STATUS as the number of its fields.
While busy, the reads of R96 answer a value the statement leaves open. -/
def Obligations.ReadsReturnTheRegisters : Prop :=
  ∀ s : State,
    hostStep (.rd .id) s = .next { s with answer := some (.okayData 0x444553434F524507) } ∧
    hostStep (.rd .ctrl) s = .next { s with answer := some (.okayData (if s.ctrlIe then 1 else 0)) } ∧
    hostStep (.rd .status) s =
      .next { s with
        answer := some (.okayData (BitVec.ofNat 64 (256 * s.err.val + 16 * s.ovr.toNat + 8 * s.ivv.toNat +
          4 * s.keyv.toNat + 2 * s.done.toNat + s.pending.isSome.toNat))) } ∧
    hostStep (.rd .cmd) s = .next { s with answer := some (.okayData 0) } ∧
    hostStep (.rd .key) s = .next { s with answer := some (.okayData s.key) } ∧
    hostStep (.rd .iv) s = .next { s with answer := some (.okayData s.iv) } ∧
    hostStep (.rd .din) s = .next { s with answer := some (.okayData s.din) } ∧
    (s.pending = none →
      hostStep (.rd .dout) s = .next { s with answer := some (.okayData s.dout) } ∧
      hostStep (.rd .msgLen) s = .next { s with answer := some (.okayData s.msgLen) } ∧
      ∀ i : Fin 16, hostStep (.rd (.rk i)) s = .next { s with answer := some (.okayData (s.rk[i].setWidth 64)) }) ∧
    (s.pending ≠ none → ∀ r : RegName, r = .dout ∨ r = .msgLen ∨ (∃ i, r = .rk i) →
      ∃ v n, hostStep (.rd r) s = .next { s with draws := n, answer := some (.okayData v) })

/-- R96: while a command is pending, reads of DOUT, MSG_LEN, RK and MSGBUF return okay with the next draw, a value nothing
constrains, and use it up; every other read returns its value. -/
def Obligations.BusyReadsOfResultsAreUnspecified : Prop :=
  ∀ s : State, s.pending ≠ none →
    (∀ r : RegName, r = .dout ∨ r = .msgLen ∨ (∃ i, r = .rk i) →
      hostStep (.rd r) s =
        .next { s with draws := s.draws + 1, answer := some (.okayData (Config.busyReadDraw s.draws)) }) ∧
    (∀ w : Nat, 8 * w + 8 ≤ Config.msgbufBytes →
      hostStep (.rdbuf w) s =
        .next { s with draws := s.draws + 1, answer := some (.okayData (Config.busyReadDraw s.draws)) }) ∧
    hostStep (.rd .id) s = .next { s with answer := some (.okayData 0x444553434F524507) } ∧
    hostStep (.rd .ctrl) s = .next { s with answer := some (.okayData (if s.ctrlIe then 1 else 0)) } ∧
    hostStep (.rd .status) s = .next { s with answer := some (.okayData (statusWord s)) } ∧
    hostStep (.rd .cmd) s = .next { s with answer := some (.okayData 0) } ∧
    hostStep (.rd .key) s = .next { s with answer := some (.okayData s.key) } ∧
    hostStep (.rd .iv) s = .next { s with answer := some (.okayData s.iv) } ∧
    hostStep (.rd .din) s = .next { s with answer := some (.okayData s.din) } ∧
    (∀ off, (0x48 ≤ off ∧ off < 0x80) ∨ (0x100 ≤ off ∧ off < 0x1000) → off % 8 = 0 →
      accessStep ⟨.read, Config.coreBase + off, 8, 0⟩ s = .next { s with answer := some (.okayData 0) })

/-- R87: the effect of every register write to an idle core; the write of CMD is the issue of R151. -/
def Obligations.IdleWritesLoadTheRegisters : Prop :=
  ∀ (s : State) (w : Word64), s.pending = none →
    hostStep (.wr .ctrl w) s = .next { s with ctrlIe := w.getLsbD 0, answer := some .okay } ∧
    hostStep (.wr .status w) s =
      .next { s with
        done := if w.getLsbD 1 then false else s.done
        ovr := if w.getLsbD 4 then false else s.ovr
        answer := some .okay } ∧
    hostStep (.wr .cmd w) s =
      .next { s with pending := some (BitVec.ofNat 8 w.toNat), done := false, err := 0, answer := some .okay } ∧
    hostStep (.wr .key w) s = .next { s with key := w, keyv := true, answer := some .okay } ∧
    hostStep (.wr .iv w) s = .next { s with iv := w, ivv := true, answer := some .okay } ∧
    hostStep (.wr .din w) s = .next { s with din := w, answer := some .okay } ∧
    hostStep (.wr .msgLen w) s = .next { s with msgLen := w, answer := some .okay } ∧
    hostStep (.wr .id w) s = .next { s with answer := some .okay } ∧
    hostStep (.wr .dout w) s = .next { s with answer := some .okay } ∧
    (∀ i : Fin 16, hostStep (.wr (.rk i) w) s = .next { s with answer := some .okay })

/-- R95: while a command is pending, writes to KEY, IV, DIN, MSG_LEN, CMD and MSGBUF are dropped and set OVR, answered with
okay; CTRL and STATUS act as always; writes to ID, DOUT, RK and reserved offsets do nothing. -/
def Obligations.BusyWritesAreDroppedWithOverrun : Prop :=
  ∀ (s : State) (w : Word64), s.pending ≠ none →
    (∀ r ∈ [RegName.key, .iv, .din, .msgLen, .cmd],
      hostStep (.wr r w) s = .next { s with ovr := true, answer := some .okay }) ∧
    (∀ a : Nat, 8 * a + 8 ≤ Config.msgbufBytes →
      hostStep (.wrbuf a w) s = .next { s with ovr := true, answer := some .okay }) ∧
    hostStep (.wr .ctrl w) s = .next { s with ctrlIe := w.getLsbD 0, answer := some .okay } ∧
    hostStep (.wr .status w) s =
      .next { s with
        done := if w.getLsbD 1 then false else s.done
        ovr := if w.getLsbD 4 then false else s.ovr
        answer := some .okay } ∧
    (∀ r : RegName, r = .id ∨ r = .dout ∨ (∃ i, r = .rk i) →
      hostStep (.wr r w) s = .next { s with answer := some .okay }) ∧
    (∀ off, (0x48 ≤ off ∧ off < 0x80) ∨ (0x100 ≤ off ∧ off < 0x1000) → off % 8 = 0 →
      accessStep ⟨.write, Config.coreBase + off, 8, w⟩ s = .next { s with answer := some .okay })

/-- R84: the reserved offsets read 0 and ignore writes, in every state, and OVR is not set. -/
def Obligations.ReservedOffsetsReadZeroAndIgnoreWrites : Prop :=
  ∀ (s : State) (w : Word64) (off : Nat), (0x48 ≤ off ∧ off < 0x80) ∨ (0x100 ≤ off ∧ off < 0x1000) → off % 8 = 0 →
    accessStep ⟨.read, Config.coreBase + off, 8, w⟩ s = .next { s with answer := some (.okayData 0) } ∧
    accessStep ⟨.write, Config.coreBase + off, 8, w⟩ s = .next { s with answer := some .okay }

/-- R89: a buffer word is big-endian. A write of an idle core stores wdata[63-8j : 56-8j] in MSGBUF[8w+j] and changes no
other byte; a read returns the number of the eight bytes, so it reads the written word back. -/
def Obligations.BufferWordsAreBigEndian : Prop :=
  ∀ (s : State) (a : Nat) (w : Word64), s.pending = none → 8 * a + 8 ≤ Config.msgbufBytes → ∃ t : State,
    hostStep (.wrbuf a w) s = .next t ∧
    t = { s with msgbuf := t.msgbuf, answer := some .okay } ∧
    (∀ j < 8, msgByte t (8 * a + j) = w.extractLsb' (56 - 8 * j) 8) ∧
    (∀ x, x < 8 * a ∨ 8 * a + 8 ≤ x → msgByte t x = msgByte s x) ∧
    hostStep (.rdbuf a) t = .next { t with answer := some (.okayData w) } ∧
    ∃ v : Word64, hostStep (.rdbuf a) s = .next { s with answer := some (.okayData v) } ∧
      ∀ j < 8, v.extractLsb' (56 - 8 * j) 8 = msgByte s (8 * a + j)

/-- R33: the fields of STATUS, bit by bit, all 0 at reset; and its write-1-to-clear bits, while busy too. -/
def Obligations.StatusFieldsStandAtTheirBits : Prop :=
  (∀ s : State,
    (statusWord s).getLsbD 0 = busy s ∧ (statusWord s).getLsbD 1 = s.done ∧ (statusWord s).getLsbD 2 = s.keyv ∧
    (statusWord s).getLsbD 3 = s.ivv ∧ (statusWord s).getLsbD 4 = s.ovr ∧
    (∀ k, 5 ≤ k → k ≤ 7 → (statusWord s).getLsbD k = false) ∧
    ((statusWord s).extractLsb' 8 4).toNat = s.err.val ∧
    (∀ k, 12 ≤ k → (statusWord s).getLsbD k = false)) ∧
  statusWord State.reset = 0 ∧
  ∀ (s : State) (w : Word64), hostStep (.wr .status w) s =
    .next { s with
      done := if w.getLsbD 1 then false else s.done
      ovr := if w.getLsbD 4 then false else s.ovr
      answer := some .okay }

/-- R151: an accepted CMD write latches the opcode unchecked, clears DONE and ERR, and changes nothing else; irq falls.
R152: a CMD write while a command is pending is dropped and sets OVR, and the pending command stays. -/
def Obligations.CommandWriteIssuesOrIsDropped : Prop :=
  ∀ (s : State) (w : Word64),
    (s.pending = none → ∃ t : State, hostStep (.wr .cmd w) s = .next t ∧ irq t = false ∧
      t = { s with pending := some (w.extractLsb' 0 8), done := false, err := 0, answer := some .okay }) ∧
    (∀ op, s.pending = some op → ∃ t : State, hostStep (.wr .cmd w) s = .next t ∧ t.pending = some op ∧
      t = { s with ovr := true, answer := some .okay })

/-- R131: the pseudo-instructions on the machine, in this order: `ack`; `wait` under every schedule of the host's reads and
the core's steps, where each read answers and all but the last of an ended wait had BUSY = 1, an ended wait leaves the core
idle, and a read after the core has moved (or on an idle core) ends it; `run` with any number of reads before the
completion; `loadmsg`; `readmsg`, whose result is the MSG_LEN bytes of MSGBUF. That the schedule stands for the
interleaving is the model's form (log 14). -/
def Obligations.PseudoInstructionsRunAsTheyExpand : Prop :=
  ∀ s : State,
    (∃ r, runPseudo .ack [.host] ⟨s, []⟩ = .next r ∧ ended .ack r = true ∧ r.answers = [.okay] ∧
      r.state = { s with done := false, ovr := false, answer := some .okay }) ∧
    (∀ ms : List Mover, ∃ r, runPseudo .wait ms ⟨s, []⟩ = .next r ∧
      (∀ j, j < r.answers.length → ∃ v, r.answers[j]? = some (.okayData v) ∧
        (v.getLsbD 0 = true ↔ j + 1 < r.answers.length ∨ ended .wait r = false)) ∧
      (ended .wait r = true → r.answers ≠ [] ∧ r.state.pending = none) ∧
      (∀ a b, ms = a ++ b → (Mover.core ∈ a ∨ s.pending = none) → Mover.host ∈ b → ended .wait r = true)) ∧
    (∀ (i : Instr) (k : Nat), s.pending = none → ∃ t r,
      exec i { s with pending := some (encode i), done := false, err := 0 } = .next t ∧
      runPseudo (.run i) (List.replicate (k + 1) .host ++ [.core, .host]) ⟨s, []⟩ = .next r ∧
      ended (.run i) r = true ∧ r.answers.length = k + 2 ∧
      r.state = { t with answer := some (.okayData (statusWord t)) }) ∧
    (∀ m : List Byte, s.pending = none → m.length ≤ Config.msgbufBytes → ∃ r,
      runPseudo (.loadmsg m) (List.replicate (wordsFor m.length + 1) .host) ⟨s, []⟩ = .next r ∧
      ended (.loadmsg m) r = true ∧ memRead r.state 0 m.length = m ∧ r.state.msgLen.toNat = m.length ∧
      r.state = { s with msgbuf := r.state.msgbuf, msgLen := r.state.msgLen, answer := some .okay } ∧
      (∀ a, m.length ≤ a → a < 8 * wordsFor m.length → msgByte r.state a = 0) ∧
      ∀ a, 8 * wordsFor m.length ≤ a → msgByte r.state a = msgByte s a) ∧
    (s.pending = none → s.msgLen.toNat ≤ Config.msgbufBytes → ∃ r,
      runPseudo .readmsg (List.replicate (wordsFor s.msgLen.toNat + 1) .host) ⟨s, []⟩ = .next r ∧
      ended .readmsg r = true ∧ readmsgResult r.answers = memRead s 0 s.msgLen.toNat ∧
      r.state = { s with answer := r.state.answer })

/-! ## The datapath -/

/-- R180, R181: the bit converter, bit by bit, and that both directions are lossless. -/
def Obligations.BitConverterIsLossless : Prop :=
  (∀ (k : Nat) (m : List Byte), m.length = k →
    bitsToBytes (bytesToBits (8 * k) m) = m ∧
    ∀ j t, j < k → t < 8 → (bytesToBits (8 * k) m).getMsbD (8 * j + t) = (m.getD j 0).getLsbD (7 - t)) ∧
  (∀ (k : Nat) (s : BitVec (8 * k)), bytesToBits (8 * k) (bitsToBytes s) = s ∧ (bitsToBytes s).length = k ∧
    ∀ j t, j < k → t < 8 → ((bitsToBytes s).getD j 0).getLsbD (7 - t) = s.getMsbD (8 * j + t))

/-- R184, R191: every entry of every table is in range for the input it is used with; IP, IP^-1 and P are permutations, E
has every position and sixteen of them twice, PC-1 and PC-2 have no position twice and PC-1 no multiple of 8, IP^-1 is the
inverse of IP. (As R191 says, these facts do not show that the tables are the standard's.) -/
def Obligations.PermutationTablesMeetTheirFacts : Prop :=
  (∀ k ∈ tableIP ++ tableIPInv ++ tablePC1, 1 ≤ k ∧ k ≤ 64) ∧ (∀ k ∈ tableE ++ tableP, 1 ≤ k ∧ k ≤ 32) ∧
  (∀ k ∈ tablePC2, 1 ≤ k ∧ k ≤ 56) ∧
  (∀ k, 1 ≤ k → k ≤ 64 → tableIP.count k = 1 ∧ tableIPInv.count k = 1) ∧
  (∀ k, 1 ≤ k → k ≤ 32 → tableP.count k = 1) ∧ tableIP.length = 64 ∧ tableIPInv.length = 64 ∧ tableP.length = 32 ∧
  (∀ k, 1 ≤ k → k ≤ 32 → tableE.count k = 1 ∨ tableE.count k = 2) ∧ tableE.length = 48 ∧
  (∀ k, k ∈ [1, 4, 5, 8, 9, 12, 13, 16, 17, 20, 21, 24, 25, 28, 29, 32] ↔ tableE.count k = 2) ∧
  (tablePC1.Nodup ∧ tablePC1.length = 56 ∧ ∀ k ∈ tablePC1, 1 ≤ k ∧ k ≤ 64 ∧ k % 8 ≠ 0) ∧
  (tablePC2.Nodup ∧ tablePC2.length = 48 ∧ ∀ k ∈ tablePC2, 1 ≤ k ∧ k ≤ 56) ∧
  (∀ k, 1 ≤ k → k ≤ 64 → tableIPInv.getD (tableIP.getD (k - 1) 0 - 1) 0 = k)

/-- R250: each of the 32 rows of S1 to S8 is a permutation of 0..15. -/
def Obligations.SboxRowsArePermutations : Prop :=
  sboxes.length = 8 ∧ ∀ box ∈ sboxes, box.length = 4 ∧ ∀ row ∈ box, row.length = 16 ∧ ∀ v < 16, row.count v = 1

/-- R186: the final permutation undoes the initial one, and the other way round. -/
def Obligations.FinalPermutationUndoesTheInitial : Prop :=
  ∀ x : Word64, permIPInv (permIP x) = x ∧ permIP (permIPInv x) = x

/-- R212, R214: round key i is PC-2 of the halves rotated by the sum of the first i + 1 shifts. -/
def Obligations.RoundKeysComeFromCumulativeRotations : Prop :=
  ∀ (k : Word64) (i : Nat), i < 16 →
    (deriveRoundKeys k).length = 16 ∧
    (deriveRoundKeys k).getD i 0 =
      permPC2 (joinHalves (rotl (keyC0 k) ((shifts.take (i + 1)).sum)) (rotl (keyD0 k) ((shifts.take (i + 1)).sum)))

/-- R215: the shifts sum to 28, and after the sixteen rotations a key half is what it was. -/
def Obligations.KeyHalvesReturnToTheirStart : Prop := shifts.sum = 28 ∧ ∀ h : KeyHalf, shifts.foldl rotl h = h

/-- R213: every key is accepted, and two keys that differ only in parity bits give the same round keys and the same cipher
results. -/
def Obligations.ParityBitsAreNeverRead : Prop :=
  (∀ k k' : Word64, (∀ i < 64, i % 8 ≠ 0 → k.getLsbD i = k'.getLsbD i) →
    deriveRoundKeys k = deriveRoundKeys k' ∧ ∀ x, desEnc x k = desEnc x k' ∧ desDec x k = desDec x k') ∧
  ∀ (s : State) (k : Word64), s.pending = none → ∃ t u : State,
    hostStep (.wr .key k) s = .next t ∧ exec .keysched t = .next u ∧ u.err = 0

/-- R218: for the four keys named all sixteen round keys are equal, and encryption and decryption are one function. -/
def Obligations.WeakKeysEncipherAsTheyDecipher : Prop :=
  ∀ k ∈ [(0x0101010101010101 : Word64), 0xFEFEFEFEFEFEFEFE, 0x1F1F1F1F0E0E0E0E, 0xE0E0E0E0F1F1F1F1],
    (∀ i < 16, (deriveRoundKeys k).getD i 0 = (deriveRoundKeys k).getD 0 0) ∧ ∀ x, desEnc x k = desDec x k

/-- R253: the worked example of f, stage by stage, and its corner cases. -/
def Obligations.RoundFunctionWorkedExample : Prop :=
  permE 0xF0AAF0AA = 0x7A15557A1555 ∧ permE 0xF0AAF0AA ^^^ 0x1B02EFFC7072 = 0x6117BA866527 ∧
  sboxStage 0x6117BA866527 = 0x5C82B597 ∧ roundF 0xF0AAF0AA 0x1B02EFFC7072 = 0x234AA9BB ∧
  roundF 0x00000000 0x000000000000 = 0xD8D8DBBC ∧ roundF 0xFFFFFFFF 0x000000000000 = 0x38DBF9CB ∧
  roundF 0x00000000 0xFFFFFFFFFFFF = 0x38DBF9CB

/-- R278: the block engine run on the reversed round keys undoes it, for any list of round keys; so decryption undoes
encryption and encryption undoes decryption, for every key and block. -/
def Obligations.ReversedRoundKeysUndoTheBlockEngine : Prop :=
  (∀ (x : Word64) (ks : List RoundKey), feistel (feistel x ks) ks.reverse = x) ∧
  ∀ x k : Word64, desDec (desEnc x k) k = x ∧ desEnc (desDec x k) k = x

/-- R279: complementing key and block complements the ciphertext, with the rule's example. -/
def Obligations.ComplementedInputsGiveTheComplementedCiphertext : Prop :=
  (∀ x k : Word64, desEnc (~~~x) (~~~k) = ~~~(desEnc x k)) ∧
  desEnc 0xFEDCBA9876543210 0xECCBA8866443200E = 0x7A17ECABF0F54BFA ∧
  (0x7A17ECABF0F54BFA : Word64) = ~~~0x85E813540F0AB405

/-- R281: on the machine, BLK_DEC of the block that BLK_ENC put into DOUT gives back the block of DIN, and leaves RK as
BLK_ENC left it. -/
def Obligations.BlkDecUndoesBlkEnc : Prop :=
  ∀ s : State, s.keyv = true → ∃ t u v : State,
    exec .blkEnc s = .next t ∧ hostStep (.wr .din t.dout) t = .next u ∧ exec .blkDec u = .next v ∧
    v.dout = s.din ∧ v.rk = t.rk ∧ v.key = s.key ∧ v.err = 0

/-! ## Padding and modes -/

/-- R303, R306: the padded length; the padded form of a message that fits the buffer fits it too; and, past the checks that
come first, a MSG command raises LENGTH exactly when its length check fails. -/
def Obligations.PaddedLengthAndLengthChecks : Prop :=
  (∀ m : List Byte,
    (m.length % 8 = 0 → (pad m).length = m.length) ∧
    (m.length % 8 ≠ 0 → (pad m).length = m.length + 8 - m.length % 8) ∧
    (pad m).length = 8 * ((m.length + 7) / 8) ∧
    (m.length ≤ Config.msgbufBytes → (pad m).length ≤ Config.msgbufBytes)) ∧
  ∀ (s : State) (i : Instr), s.keyv = true → s.ivv = true →
    (i = .msgEncEcb ∨ i = .msgEncCbc →
      (exec i s = .next { s with err := 3, done := true, pending := none } ↔ Config.msgbufBytes < s.msgLen.toNat)) ∧
    (i = .msgDecEcb ∨ i = .msgDecCbc →
      (exec i s = .next { s with err := 3, done := true, pending := none } ↔
        Config.msgbufBytes < s.msgLen.toNat ∨ s.msgLen.toNat % 8 ≠ 0))

/-- R304: unpad strips exactly valid padding: p bytes of value p at the end, p from 1 to 8; all other data is kept whole. -/
def Obligations.UnpadStripsExactlyValidPadding : Prop :=
  (∀ (m : List Byte) (p : Nat), 1 ≤ p → p ≤ 8 → unpad (m ++ List.replicate p (BitVec.ofNat 8 p)) = m) ∧
  ∀ d : List Byte,
    (∀ (m : List Byte) (p : Nat), 1 ≤ p → p ≤ 8 → d ≠ m ++ List.replicate p (BitVec.ofNat 8 p)) → unpad d = d

/-- R313, R314: unpadding undoes padding but for an aligned message that itself ends in valid padding, which loses it. -/
def Obligations.UnpadUndoesPadExceptForPaddedLookalikes : Prop :=
  (∀ m : List Byte, m.length % 8 ≠ 0 ∨
      (∀ (n : List Byte) (p : Nat), 1 ≤ p → p ≤ 8 → m ≠ n ++ List.replicate p (BitVec.ofNat 8 p)) →
    unpad (pad m) = m) ∧
  ∀ (n : List Byte) (p : Nat), 1 ≤ p → p ≤ 8 → (n.length + p) % 8 = 0 →
    unpad (pad (n ++ List.replicate p (BitVec.ofNat 8 p))) = n

/-- R313: each mode's decryption of its encryption gives back the padded message, for any round keys. -/
def Obligations.ModesDecryptWhatTheyEncrypt : Prop :=
  ∀ (ks : List RoundKey) (m : List Byte),
    ecbDecData ks (ecbEnc ks m) = pad m ∧ ∀ iv : List Byte, iv.length = 8 → cbcDecData ks iv (cbcEnc ks iv m) = pad m

/-- R310, R323: the IV reaches only the first decrypted block. -/
def Obligations.WrongIvCorruptsOnlyTheFirstBlock : Prop :=
  ∀ (ks : List RoundKey) (iv iv' c : List Byte), iv.length = 8 → iv'.length = 8 → c.length % 8 = 0 →
    (cbcDecData ks iv c).drop 8 = (cbcDecData ks iv' c).drop 8

/-- R405: a message split at a whole number of blocks, the second piece started from the last ciphertext block of the
first, encrypts under CBC to the same ciphertext as the whole. -/
def Obligations.CbcMessagesSplitAtBlockBoundaries : Prop :=
  ∀ (ks : List RoundKey) (iv m n : List Byte), iv.length = 8 → m.length % 8 = 0 → m ≠ [] →
    cbcEnc ks iv (m ++ n) =
      cbcEnc ks iv m ++ cbcEnc ks ((cbcEnc ks iv m).drop (m.length - 8)) n

/-- R313 on the machine: a message encrypted and then decrypted in the same mode leaves the padded message in MSGBUF and the
unpadded length in MSG_LEN, so the message itself unless it is one of R314's. -/
def Obligations.MessageRoundTripOnTheMachine : Prop :=
  ∀ (s : State) (enc dec : Instr), (enc = .msgEncEcb ∧ dec = .msgDecEcb) ∨ (enc = .msgEncCbc ∧ dec = .msgDecCbc) →
    s.keyv = true → (enc = .msgEncCbc → s.ivv = true) → s.msgLen.toNat ≤ Config.msgbufBytes → ∃ t u : State,
      exec enc s = .next t ∧ exec dec t = .next u ∧ t.err = 0 ∧ u.err = 0 ∧
      memRead u 0 (pad (inputMessage s)).length = pad (inputMessage s) ∧
      u.msgLen.toNat = (unpad (pad (inputMessage s))).length ∧
      (unpad (pad (inputMessage s)) = inputMessage s → u.msgLen = s.msgLen ∧ inputMessage u = inputMessage s) ∧
      u.iv = s.iv ∧ u.key = s.key ∧ u.rk = t.rk
end

