-- ==== Sys2Proof/Laws/State.lean ====
section
/-! SUPPORT. The state updates, field by field: one lemma per field and update, true by rfl, so that no proof unfolds a
record update. -/

namespace Sys2Proof.Machine

variable (s : State)

@[simp] theorem writeCtrl_ctrlIe (w : Word64) : (writeCtrl w s).ctrlIe = w.getLsbD 0 := rfl
@[simp] theorem writeCtrl_done (w : Word64) : (writeCtrl w s).done = s.done := rfl
@[simp] theorem writeCtrl_keyv (w : Word64) : (writeCtrl w s).keyv = s.keyv := rfl
@[simp] theorem writeCtrl_ivv (w : Word64) : (writeCtrl w s).ivv = s.ivv := rfl
@[simp] theorem writeCtrl_ovr (w : Word64) : (writeCtrl w s).ovr = s.ovr := rfl
@[simp] theorem writeCtrl_err (w : Word64) : (writeCtrl w s).err = s.err := rfl
@[simp] theorem writeCtrl_key (w : Word64) : (writeCtrl w s).key = s.key := rfl
@[simp] theorem writeCtrl_iv (w : Word64) : (writeCtrl w s).iv = s.iv := rfl
@[simp] theorem writeCtrl_din (w : Word64) : (writeCtrl w s).din = s.din := rfl
@[simp] theorem writeCtrl_dout (w : Word64) : (writeCtrl w s).dout = s.dout := rfl
@[simp] theorem writeCtrl_msgLen (w : Word64) : (writeCtrl w s).msgLen = s.msgLen := rfl
@[simp] theorem writeCtrl_rk (w : Word64) : (writeCtrl w s).rk = s.rk := rfl
@[simp] theorem writeCtrl_msgbuf (w : Word64) : (writeCtrl w s).msgbuf = s.msgbuf := rfl
@[simp] theorem writeCtrl_pending (w : Word64) : (writeCtrl w s).pending = s.pending := rfl
@[simp] theorem writeCtrl_epoch (w : Word64) : (writeCtrl w s).epoch = s.epoch := rfl
@[simp] theorem writeCtrl_draws (w : Word64) : (writeCtrl w s).draws = s.draws := rfl
@[simp] theorem writeCtrl_agenda (w : Word64) : (writeCtrl w s).agenda = s.agenda := rfl
@[simp] theorem writeCtrl_answer (w : Word64) : (writeCtrl w s).answer = s.answer := rfl

@[simp] theorem writeStatus_ctrlIe (w : Word64) : (writeStatus w s).ctrlIe = s.ctrlIe := rfl
@[simp] theorem writeStatus_done (w : Word64) : (writeStatus w s).done = (s.done && !w.getLsbD 1) := rfl
@[simp] theorem writeStatus_keyv (w : Word64) : (writeStatus w s).keyv = s.keyv := rfl
@[simp] theorem writeStatus_ivv (w : Word64) : (writeStatus w s).ivv = s.ivv := rfl
@[simp] theorem writeStatus_ovr (w : Word64) : (writeStatus w s).ovr = (s.ovr && !w.getLsbD 4) := rfl
@[simp] theorem writeStatus_err (w : Word64) : (writeStatus w s).err = s.err := rfl
@[simp] theorem writeStatus_key (w : Word64) : (writeStatus w s).key = s.key := rfl
@[simp] theorem writeStatus_iv (w : Word64) : (writeStatus w s).iv = s.iv := rfl
@[simp] theorem writeStatus_din (w : Word64) : (writeStatus w s).din = s.din := rfl
@[simp] theorem writeStatus_dout (w : Word64) : (writeStatus w s).dout = s.dout := rfl
@[simp] theorem writeStatus_msgLen (w : Word64) : (writeStatus w s).msgLen = s.msgLen := rfl
@[simp] theorem writeStatus_rk (w : Word64) : (writeStatus w s).rk = s.rk := rfl
@[simp] theorem writeStatus_msgbuf (w : Word64) : (writeStatus w s).msgbuf = s.msgbuf := rfl
@[simp] theorem writeStatus_pending (w : Word64) : (writeStatus w s).pending = s.pending := rfl
@[simp] theorem writeStatus_epoch (w : Word64) : (writeStatus w s).epoch = s.epoch := rfl
@[simp] theorem writeStatus_draws (w : Word64) : (writeStatus w s).draws = s.draws := rfl
@[simp] theorem writeStatus_agenda (w : Word64) : (writeStatus w s).agenda = s.agenda := rfl
@[simp] theorem writeStatus_answer (w : Word64) : (writeStatus w s).answer = s.answer := rfl

@[simp] theorem setOverrun_ctrlIe : (setOverrun s).ctrlIe = s.ctrlIe := rfl
@[simp] theorem setOverrun_done : (setOverrun s).done = s.done := rfl
@[simp] theorem setOverrun_keyv : (setOverrun s).keyv = s.keyv := rfl
@[simp] theorem setOverrun_ivv : (setOverrun s).ivv = s.ivv := rfl
@[simp] theorem setOverrun_ovr : (setOverrun s).ovr = true := rfl
@[simp] theorem setOverrun_err : (setOverrun s).err = s.err := rfl
@[simp] theorem setOverrun_key : (setOverrun s).key = s.key := rfl
@[simp] theorem setOverrun_iv : (setOverrun s).iv = s.iv := rfl
@[simp] theorem setOverrun_din : (setOverrun s).din = s.din := rfl
@[simp] theorem setOverrun_dout : (setOverrun s).dout = s.dout := rfl
@[simp] theorem setOverrun_msgLen : (setOverrun s).msgLen = s.msgLen := rfl
@[simp] theorem setOverrun_rk : (setOverrun s).rk = s.rk := rfl
@[simp] theorem setOverrun_msgbuf : (setOverrun s).msgbuf = s.msgbuf := rfl
@[simp] theorem setOverrun_pending : (setOverrun s).pending = s.pending := rfl
@[simp] theorem setOverrun_epoch : (setOverrun s).epoch = s.epoch := rfl
@[simp] theorem setOverrun_draws : (setOverrun s).draws = s.draws := rfl
@[simp] theorem setOverrun_agenda : (setOverrun s).agenda = s.agenda := rfl
@[simp] theorem setOverrun_answer : (setOverrun s).answer = s.answer := rfl

@[simp] theorem memWrite_ctrlIe (a : Nat) (m : List Byte) : (memWrite a m s).ctrlIe = s.ctrlIe := rfl
@[simp] theorem memWrite_done (a : Nat) (m : List Byte) : (memWrite a m s).done = s.done := rfl
@[simp] theorem memWrite_keyv (a : Nat) (m : List Byte) : (memWrite a m s).keyv = s.keyv := rfl
@[simp] theorem memWrite_ivv (a : Nat) (m : List Byte) : (memWrite a m s).ivv = s.ivv := rfl
@[simp] theorem memWrite_ovr (a : Nat) (m : List Byte) : (memWrite a m s).ovr = s.ovr := rfl
@[simp] theorem memWrite_err (a : Nat) (m : List Byte) : (memWrite a m s).err = s.err := rfl
@[simp] theorem memWrite_key (a : Nat) (m : List Byte) : (memWrite a m s).key = s.key := rfl
@[simp] theorem memWrite_iv (a : Nat) (m : List Byte) : (memWrite a m s).iv = s.iv := rfl
@[simp] theorem memWrite_din (a : Nat) (m : List Byte) : (memWrite a m s).din = s.din := rfl
@[simp] theorem memWrite_dout (a : Nat) (m : List Byte) : (memWrite a m s).dout = s.dout := rfl
@[simp] theorem memWrite_msgLen (a : Nat) (m : List Byte) : (memWrite a m s).msgLen = s.msgLen := rfl
@[simp] theorem memWrite_rk (a : Nat) (m : List Byte) : (memWrite a m s).rk = s.rk := rfl
@[simp] theorem memWrite_msgbuf (a : Nat) (m : List Byte) : (memWrite a m s).msgbuf = Memory.putAll s.msgbuf a m := rfl
@[simp] theorem memWrite_pending (a : Nat) (m : List Byte) : (memWrite a m s).pending = s.pending := rfl
@[simp] theorem memWrite_epoch (a : Nat) (m : List Byte) : (memWrite a m s).epoch = s.epoch := rfl
@[simp] theorem memWrite_draws (a : Nat) (m : List Byte) : (memWrite a m s).draws = s.draws := rfl
@[simp] theorem memWrite_agenda (a : Nat) (m : List Byte) : (memWrite a m s).agenda = s.agenda := rfl
@[simp] theorem memWrite_answer (a : Nat) (m : List Byte) : (memWrite a m s).answer = s.answer := rfl

@[simp] theorem issue_ctrlIe (w : Word64) : (issue w s).ctrlIe = s.ctrlIe := rfl
@[simp] theorem issue_done (w : Word64) : (issue w s).done = false := rfl
@[simp] theorem issue_keyv (w : Word64) : (issue w s).keyv = s.keyv := rfl
@[simp] theorem issue_ivv (w : Word64) : (issue w s).ivv = s.ivv := rfl
@[simp] theorem issue_ovr (w : Word64) : (issue w s).ovr = s.ovr := rfl
@[simp] theorem issue_err (w : Word64) : (issue w s).err = 0 := rfl
@[simp] theorem issue_key (w : Word64) : (issue w s).key = s.key := rfl
@[simp] theorem issue_iv (w : Word64) : (issue w s).iv = s.iv := rfl
@[simp] theorem issue_din (w : Word64) : (issue w s).din = s.din := rfl
@[simp] theorem issue_dout (w : Word64) : (issue w s).dout = s.dout := rfl
@[simp] theorem issue_msgLen (w : Word64) : (issue w s).msgLen = s.msgLen := rfl
@[simp] theorem issue_rk (w : Word64) : (issue w s).rk = s.rk := rfl
@[simp] theorem issue_msgbuf (w : Word64) : (issue w s).msgbuf = s.msgbuf := rfl
@[simp] theorem issue_pending (w : Word64) : (issue w s).pending = some (commandByte w) := rfl
@[simp] theorem issue_epoch (w : Word64) : (issue w s).epoch = s.epoch := rfl
@[simp] theorem issue_draws (w : Word64) : (issue w s).draws = s.draws := rfl
@[simp] theorem issue_agenda (w : Word64) : (issue w s).agenda = s.agenda := rfl
@[simp] theorem issue_answer (w : Word64) : (issue w s).answer = s.answer := rfl

@[simp] theorem applyWrites_ctrlIe (w : Writes) : (applyWrites w s).ctrlIe = s.ctrlIe := rfl
@[simp] theorem applyWrites_done (w : Writes) : (applyWrites w s).done = s.done := rfl
@[simp] theorem applyWrites_keyv (w : Writes) : (applyWrites w s).keyv = s.keyv := rfl
@[simp] theorem applyWrites_ivv (w : Writes) : (applyWrites w s).ivv = s.ivv := rfl
@[simp] theorem applyWrites_ovr (w : Writes) : (applyWrites w s).ovr = s.ovr := rfl
@[simp] theorem applyWrites_err (w : Writes) : (applyWrites w s).err = s.err := rfl
@[simp] theorem applyWrites_key (w : Writes) : (applyWrites w s).key = s.key := rfl
@[simp] theorem applyWrites_iv (w : Writes) : (applyWrites w s).iv = s.iv := rfl
@[simp] theorem applyWrites_din (w : Writes) : (applyWrites w s).din = s.din := rfl
@[simp] theorem applyWrites_dout (w : Writes) : (applyWrites w s).dout = w.dout.getD s.dout := rfl
@[simp] theorem applyWrites_msgLen (w : Writes) : (applyWrites w s).msgLen = (match w.msg with | none => s.msgLen | some (_, n) => BitVec.ofNat 64 n) := rfl
@[simp] theorem applyWrites_rk (w : Writes) : (applyWrites w s).rk = w.rk.getD s.rk := rfl
@[simp] theorem applyWrites_msgbuf (w : Writes) : (applyWrites w s).msgbuf = (match w.msg with | none => s.msgbuf | some (m, _) => Memory.putAll s.msgbuf 0 m) := rfl
@[simp] theorem applyWrites_pending (w : Writes) : (applyWrites w s).pending = s.pending := rfl
@[simp] theorem applyWrites_epoch (w : Writes) : (applyWrites w s).epoch = s.epoch := rfl
@[simp] theorem applyWrites_draws (w : Writes) : (applyWrites w s).draws = s.draws := rfl
@[simp] theorem applyWrites_agenda (w : Writes) : (applyWrites w s).agenda = s.agenda := rfl
@[simp] theorem applyWrites_answer (w : Writes) : (applyWrites w s).answer = s.answer := rfl

@[simp] theorem finish_ctrlIe (c : Fin 16) : (finish c s).ctrlIe = s.ctrlIe := rfl
@[simp] theorem finish_done (c : Fin 16) : (finish c s).done = true := rfl
@[simp] theorem finish_keyv (c : Fin 16) : (finish c s).keyv = s.keyv := rfl
@[simp] theorem finish_ivv (c : Fin 16) : (finish c s).ivv = s.ivv := rfl
@[simp] theorem finish_ovr (c : Fin 16) : (finish c s).ovr = s.ovr := rfl
@[simp] theorem finish_err (c : Fin 16) : (finish c s).err = c := rfl
@[simp] theorem finish_key (c : Fin 16) : (finish c s).key = s.key := rfl
@[simp] theorem finish_iv (c : Fin 16) : (finish c s).iv = s.iv := rfl
@[simp] theorem finish_din (c : Fin 16) : (finish c s).din = s.din := rfl
@[simp] theorem finish_dout (c : Fin 16) : (finish c s).dout = s.dout := rfl
@[simp] theorem finish_msgLen (c : Fin 16) : (finish c s).msgLen = s.msgLen := rfl
@[simp] theorem finish_rk (c : Fin 16) : (finish c s).rk = s.rk := rfl
@[simp] theorem finish_msgbuf (c : Fin 16) : (finish c s).msgbuf = s.msgbuf := rfl
@[simp] theorem finish_pending (c : Fin 16) : (finish c s).pending = none := rfl
@[simp] theorem finish_epoch (c : Fin 16) : (finish c s).epoch = s.epoch := rfl
@[simp] theorem finish_draws (c : Fin 16) : (finish c s).draws = s.draws := rfl
@[simp] theorem finish_agenda (c : Fin 16) : (finish c s).agenda = s.agenda := rfl
@[simp] theorem finish_answer (c : Fin 16) : (finish c s).answer = s.answer := rfl

@[simp] theorem useDraw_ctrlIe : (useDraw s).ctrlIe = s.ctrlIe := rfl
@[simp] theorem useDraw_done : (useDraw s).done = s.done := rfl
@[simp] theorem useDraw_keyv : (useDraw s).keyv = s.keyv := rfl
@[simp] theorem useDraw_ivv : (useDraw s).ivv = s.ivv := rfl
@[simp] theorem useDraw_ovr : (useDraw s).ovr = s.ovr := rfl
@[simp] theorem useDraw_err : (useDraw s).err = s.err := rfl
@[simp] theorem useDraw_key : (useDraw s).key = s.key := rfl
@[simp] theorem useDraw_iv : (useDraw s).iv = s.iv := rfl
@[simp] theorem useDraw_din : (useDraw s).din = s.din := rfl
@[simp] theorem useDraw_dout : (useDraw s).dout = s.dout := rfl
@[simp] theorem useDraw_msgLen : (useDraw s).msgLen = s.msgLen := rfl
@[simp] theorem useDraw_rk : (useDraw s).rk = s.rk := rfl
@[simp] theorem useDraw_msgbuf : (useDraw s).msgbuf = s.msgbuf := rfl
@[simp] theorem useDraw_pending : (useDraw s).pending = s.pending := rfl
@[simp] theorem useDraw_epoch : (useDraw s).epoch = s.epoch := rfl
@[simp] theorem useDraw_draws : (useDraw s).draws = s.draws + 1 := rfl
@[simp] theorem useDraw_agenda : (useDraw s).agenda = s.agenda := rfl
@[simp] theorem useDraw_answer : (useDraw s).answer = s.answer := rfl

@[simp] theorem setAnswer_ctrlIe (a : Answer) : (setAnswer a s).ctrlIe = s.ctrlIe := rfl
@[simp] theorem setAnswer_done (a : Answer) : (setAnswer a s).done = s.done := rfl
@[simp] theorem setAnswer_keyv (a : Answer) : (setAnswer a s).keyv = s.keyv := rfl
@[simp] theorem setAnswer_ivv (a : Answer) : (setAnswer a s).ivv = s.ivv := rfl
@[simp] theorem setAnswer_ovr (a : Answer) : (setAnswer a s).ovr = s.ovr := rfl
@[simp] theorem setAnswer_err (a : Answer) : (setAnswer a s).err = s.err := rfl
@[simp] theorem setAnswer_key (a : Answer) : (setAnswer a s).key = s.key := rfl
@[simp] theorem setAnswer_iv (a : Answer) : (setAnswer a s).iv = s.iv := rfl
@[simp] theorem setAnswer_din (a : Answer) : (setAnswer a s).din = s.din := rfl
@[simp] theorem setAnswer_dout (a : Answer) : (setAnswer a s).dout = s.dout := rfl
@[simp] theorem setAnswer_msgLen (a : Answer) : (setAnswer a s).msgLen = s.msgLen := rfl
@[simp] theorem setAnswer_rk (a : Answer) : (setAnswer a s).rk = s.rk := rfl
@[simp] theorem setAnswer_msgbuf (a : Answer) : (setAnswer a s).msgbuf = s.msgbuf := rfl
@[simp] theorem setAnswer_pending (a : Answer) : (setAnswer a s).pending = s.pending := rfl
@[simp] theorem setAnswer_epoch (a : Answer) : (setAnswer a s).epoch = s.epoch := rfl
@[simp] theorem setAnswer_draws (a : Answer) : (setAnswer a s).draws = s.draws := rfl
@[simp] theorem setAnswer_agenda (a : Answer) : (setAnswer a s).agenda = s.agenda := rfl
@[simp] theorem setAnswer_answer (a : Answer) : (setAnswer a s).answer = some a := rfl

@[simp] theorem setAgenda_ctrlIe (ts : List Turn) : (setAgenda ts s).ctrlIe = s.ctrlIe := rfl
@[simp] theorem setAgenda_done (ts : List Turn) : (setAgenda ts s).done = s.done := rfl
@[simp] theorem setAgenda_keyv (ts : List Turn) : (setAgenda ts s).keyv = s.keyv := rfl
@[simp] theorem setAgenda_ivv (ts : List Turn) : (setAgenda ts s).ivv = s.ivv := rfl
@[simp] theorem setAgenda_ovr (ts : List Turn) : (setAgenda ts s).ovr = s.ovr := rfl
@[simp] theorem setAgenda_err (ts : List Turn) : (setAgenda ts s).err = s.err := rfl
@[simp] theorem setAgenda_key (ts : List Turn) : (setAgenda ts s).key = s.key := rfl
@[simp] theorem setAgenda_iv (ts : List Turn) : (setAgenda ts s).iv = s.iv := rfl
@[simp] theorem setAgenda_din (ts : List Turn) : (setAgenda ts s).din = s.din := rfl
@[simp] theorem setAgenda_dout (ts : List Turn) : (setAgenda ts s).dout = s.dout := rfl
@[simp] theorem setAgenda_msgLen (ts : List Turn) : (setAgenda ts s).msgLen = s.msgLen := rfl
@[simp] theorem setAgenda_rk (ts : List Turn) : (setAgenda ts s).rk = s.rk := rfl
@[simp] theorem setAgenda_msgbuf (ts : List Turn) : (setAgenda ts s).msgbuf = s.msgbuf := rfl
@[simp] theorem setAgenda_pending (ts : List Turn) : (setAgenda ts s).pending = s.pending := rfl
@[simp] theorem setAgenda_epoch (ts : List Turn) : (setAgenda ts s).epoch = s.epoch := rfl
@[simp] theorem setAgenda_draws (ts : List Turn) : (setAgenda ts s).draws = s.draws := rfl
@[simp] theorem setAgenda_agenda (ts : List Turn) : (setAgenda ts s).agenda = ts := rfl
@[simp] theorem setAgenda_answer (ts : List Turn) : (setAgenda ts s).answer = s.answer := rfl

@[simp] theorem loadKey_ctrlIe (w : Word64) : (loadKey w s).ctrlIe = s.ctrlIe := rfl
@[simp] theorem loadKey_done (w : Word64) : (loadKey w s).done = s.done := rfl
@[simp] theorem loadKey_keyv (w : Word64) : (loadKey w s).keyv = true := rfl
@[simp] theorem loadKey_ivv (w : Word64) : (loadKey w s).ivv = s.ivv := rfl
@[simp] theorem loadKey_ovr (w : Word64) : (loadKey w s).ovr = s.ovr := rfl
@[simp] theorem loadKey_err (w : Word64) : (loadKey w s).err = s.err := rfl
@[simp] theorem loadKey_key (w : Word64) : (loadKey w s).key = w := rfl
@[simp] theorem loadKey_iv (w : Word64) : (loadKey w s).iv = s.iv := rfl
@[simp] theorem loadKey_din (w : Word64) : (loadKey w s).din = s.din := rfl
@[simp] theorem loadKey_dout (w : Word64) : (loadKey w s).dout = s.dout := rfl
@[simp] theorem loadKey_msgLen (w : Word64) : (loadKey w s).msgLen = s.msgLen := rfl
@[simp] theorem loadKey_rk (w : Word64) : (loadKey w s).rk = s.rk := rfl
@[simp] theorem loadKey_msgbuf (w : Word64) : (loadKey w s).msgbuf = s.msgbuf := rfl
@[simp] theorem loadKey_pending (w : Word64) : (loadKey w s).pending = s.pending := rfl
@[simp] theorem loadKey_epoch (w : Word64) : (loadKey w s).epoch = s.epoch := rfl
@[simp] theorem loadKey_draws (w : Word64) : (loadKey w s).draws = s.draws := rfl
@[simp] theorem loadKey_agenda (w : Word64) : (loadKey w s).agenda = s.agenda := rfl
@[simp] theorem loadKey_answer (w : Word64) : (loadKey w s).answer = s.answer := rfl

@[simp] theorem loadIv_ctrlIe (w : Word64) : (loadIv w s).ctrlIe = s.ctrlIe := rfl
@[simp] theorem loadIv_done (w : Word64) : (loadIv w s).done = s.done := rfl
@[simp] theorem loadIv_keyv (w : Word64) : (loadIv w s).keyv = s.keyv := rfl
@[simp] theorem loadIv_ivv (w : Word64) : (loadIv w s).ivv = true := rfl
@[simp] theorem loadIv_ovr (w : Word64) : (loadIv w s).ovr = s.ovr := rfl
@[simp] theorem loadIv_err (w : Word64) : (loadIv w s).err = s.err := rfl
@[simp] theorem loadIv_key (w : Word64) : (loadIv w s).key = s.key := rfl
@[simp] theorem loadIv_iv (w : Word64) : (loadIv w s).iv = w := rfl
@[simp] theorem loadIv_din (w : Word64) : (loadIv w s).din = s.din := rfl
@[simp] theorem loadIv_dout (w : Word64) : (loadIv w s).dout = s.dout := rfl
@[simp] theorem loadIv_msgLen (w : Word64) : (loadIv w s).msgLen = s.msgLen := rfl
@[simp] theorem loadIv_rk (w : Word64) : (loadIv w s).rk = s.rk := rfl
@[simp] theorem loadIv_msgbuf (w : Word64) : (loadIv w s).msgbuf = s.msgbuf := rfl
@[simp] theorem loadIv_pending (w : Word64) : (loadIv w s).pending = s.pending := rfl
@[simp] theorem loadIv_epoch (w : Word64) : (loadIv w s).epoch = s.epoch := rfl
@[simp] theorem loadIv_draws (w : Word64) : (loadIv w s).draws = s.draws := rfl
@[simp] theorem loadIv_agenda (w : Word64) : (loadIv w s).agenda = s.agenda := rfl
@[simp] theorem loadIv_answer (w : Word64) : (loadIv w s).answer = s.answer := rfl

@[simp] theorem loadDin_ctrlIe (w : Word64) : (loadDin w s).ctrlIe = s.ctrlIe := rfl
@[simp] theorem loadDin_done (w : Word64) : (loadDin w s).done = s.done := rfl
@[simp] theorem loadDin_keyv (w : Word64) : (loadDin w s).keyv = s.keyv := rfl
@[simp] theorem loadDin_ivv (w : Word64) : (loadDin w s).ivv = s.ivv := rfl
@[simp] theorem loadDin_ovr (w : Word64) : (loadDin w s).ovr = s.ovr := rfl
@[simp] theorem loadDin_err (w : Word64) : (loadDin w s).err = s.err := rfl
@[simp] theorem loadDin_key (w : Word64) : (loadDin w s).key = s.key := rfl
@[simp] theorem loadDin_iv (w : Word64) : (loadDin w s).iv = s.iv := rfl
@[simp] theorem loadDin_din (w : Word64) : (loadDin w s).din = w := rfl
@[simp] theorem loadDin_dout (w : Word64) : (loadDin w s).dout = s.dout := rfl
@[simp] theorem loadDin_msgLen (w : Word64) : (loadDin w s).msgLen = s.msgLen := rfl
@[simp] theorem loadDin_rk (w : Word64) : (loadDin w s).rk = s.rk := rfl
@[simp] theorem loadDin_msgbuf (w : Word64) : (loadDin w s).msgbuf = s.msgbuf := rfl
@[simp] theorem loadDin_pending (w : Word64) : (loadDin w s).pending = s.pending := rfl
@[simp] theorem loadDin_epoch (w : Word64) : (loadDin w s).epoch = s.epoch := rfl
@[simp] theorem loadDin_draws (w : Word64) : (loadDin w s).draws = s.draws := rfl
@[simp] theorem loadDin_agenda (w : Word64) : (loadDin w s).agenda = s.agenda := rfl
@[simp] theorem loadDin_answer (w : Word64) : (loadDin w s).answer = s.answer := rfl

@[simp] theorem loadMsgLen_ctrlIe (w : Word64) : (loadMsgLen w s).ctrlIe = s.ctrlIe := rfl
@[simp] theorem loadMsgLen_done (w : Word64) : (loadMsgLen w s).done = s.done := rfl
@[simp] theorem loadMsgLen_keyv (w : Word64) : (loadMsgLen w s).keyv = s.keyv := rfl
@[simp] theorem loadMsgLen_ivv (w : Word64) : (loadMsgLen w s).ivv = s.ivv := rfl
@[simp] theorem loadMsgLen_ovr (w : Word64) : (loadMsgLen w s).ovr = s.ovr := rfl
@[simp] theorem loadMsgLen_err (w : Word64) : (loadMsgLen w s).err = s.err := rfl
@[simp] theorem loadMsgLen_key (w : Word64) : (loadMsgLen w s).key = s.key := rfl
@[simp] theorem loadMsgLen_iv (w : Word64) : (loadMsgLen w s).iv = s.iv := rfl
@[simp] theorem loadMsgLen_din (w : Word64) : (loadMsgLen w s).din = s.din := rfl
@[simp] theorem loadMsgLen_dout (w : Word64) : (loadMsgLen w s).dout = s.dout := rfl
@[simp] theorem loadMsgLen_msgLen (w : Word64) : (loadMsgLen w s).msgLen = w := rfl
@[simp] theorem loadMsgLen_rk (w : Word64) : (loadMsgLen w s).rk = s.rk := rfl
@[simp] theorem loadMsgLen_msgbuf (w : Word64) : (loadMsgLen w s).msgbuf = s.msgbuf := rfl
@[simp] theorem loadMsgLen_pending (w : Word64) : (loadMsgLen w s).pending = s.pending := rfl
@[simp] theorem loadMsgLen_epoch (w : Word64) : (loadMsgLen w s).epoch = s.epoch := rfl
@[simp] theorem loadMsgLen_draws (w : Word64) : (loadMsgLen w s).draws = s.draws := rfl
@[simp] theorem loadMsgLen_agenda (w : Word64) : (loadMsgLen w s).agenda = s.agenda := rfl
@[simp] theorem loadMsgLen_answer (w : Word64) : (loadMsgLen w s).answer = s.answer := rfl

@[simp] theorem resetCore_ctrlIe : (resetCore s).ctrlIe = State.reset.ctrlIe := rfl
@[simp] theorem resetCore_done : (resetCore s).done = State.reset.done := rfl
@[simp] theorem resetCore_keyv : (resetCore s).keyv = State.reset.keyv := rfl
@[simp] theorem resetCore_ivv : (resetCore s).ivv = State.reset.ivv := rfl
@[simp] theorem resetCore_ovr : (resetCore s).ovr = State.reset.ovr := rfl
@[simp] theorem resetCore_err : (resetCore s).err = State.reset.err := rfl
@[simp] theorem resetCore_key : (resetCore s).key = State.reset.key := rfl
@[simp] theorem resetCore_iv : (resetCore s).iv = State.reset.iv := rfl
@[simp] theorem resetCore_din : (resetCore s).din = State.reset.din := rfl
@[simp] theorem resetCore_dout : (resetCore s).dout = State.reset.dout := rfl
@[simp] theorem resetCore_msgLen : (resetCore s).msgLen = State.reset.msgLen := rfl
@[simp] theorem resetCore_rk : (resetCore s).rk = State.reset.rk := rfl
@[simp] theorem resetCore_msgbuf : (resetCore s).msgbuf = State.reset.msgbuf := rfl
@[simp] theorem resetCore_pending : (resetCore s).pending = State.reset.pending := rfl
@[simp] theorem resetCore_epoch : (resetCore s).epoch = s.epoch + 1 := rfl
@[simp] theorem resetCore_draws : (resetCore s).draws = s.draws := rfl
@[simp] theorem resetCore_agenda : (resetCore s).agenda = s.agenda := rfl
@[simp] theorem resetCore_answer : (resetCore s).answer = State.reset.answer := rfl

/-! BUSY and the draws of the buffer, by update. -/

@[simp] theorem busy_writeCtrl (w : Word64) : busy (writeCtrl w s) = busy s := rfl
@[simp] theorem busy_writeStatus (w : Word64) : busy (writeStatus w s) = busy s := rfl
@[simp] theorem busy_setOverrun : busy (setOverrun s) = busy s := rfl
@[simp] theorem busy_memWrite (a : Nat) (m : List Byte) : busy (memWrite a m s) = busy s := rfl
@[simp] theorem busy_issue (w : Word64) : busy (issue w s) = true := rfl
@[simp] theorem busy_applyWrites (w : Writes) : busy (applyWrites w s) = busy s := rfl
@[simp] theorem busy_finish (c : Fin 16) : busy (finish c s) = false := rfl
@[simp] theorem busy_useDraw : busy (useDraw s) = busy s := rfl
@[simp] theorem busy_setAnswer (a : Answer) : busy (setAnswer a s) = busy s := rfl
@[simp] theorem busy_setAgenda (ts : List Turn) : busy (setAgenda ts s) = busy s := rfl
@[simp] theorem busy_loadKey (w : Word64) : busy (loadKey w s) = busy s := rfl
@[simp] theorem busy_loadIv (w : Word64) : busy (loadIv w s) = busy s := rfl
@[simp] theorem busy_loadDin (w : Word64) : busy (loadDin w s) = busy s := rfl
@[simp] theorem busy_loadMsgLen (w : Word64) : busy (loadMsgLen w s) = busy s := rfl
@[simp] theorem busy_resetCore : busy (resetCore s) = false := rfl

end Sys2Proof.Machine
end

