-- ==== Sys2Proof/Laws/Memory.lean ====
section
/-! SUPPORT. The message buffer: reading after writing, the canonical form, and the range of what is stored. -/

namespace Sys2Proof.Machine

/-! ## Reading after writing -/

theorem Memory.byteAt_put (m : Memory) (a : Nat) (b : Byte) (x : Nat) :
    Memory.byteAt (Memory.put m a b) x = if x = a then some b else Memory.byteAt m x := by
  induction m with
  | nil => simp [Memory.put, Memory.byteAt, eq_comm]
  | cons cell rest ih =>
    obtain ⟨c, v⟩ := cell
    simp only [Memory.put]
    by_cases hx : x = a
    · subst hx
      rw [if_pos rfl] at ih ⊢
      split_ifs with hlt heq
      · simp [Memory.byteAt]
      · simp [Memory.byteAt]
      · have hcx : ¬c = x := fun h => heq h.symm
        simp_all [Memory.byteAt]
    · have hax : a ≠ x := fun h => hx h.symm
      split_ifs with hlt heq <;> simp_all [Memory.byteAt]

/-- One lemma for a write of many bytes: inside the written range the written byte, outside what was there. -/
theorem Memory.byteAt_putAll (bs : List Byte) (m : Memory) (a x : Nat) :
    Memory.byteAt (Memory.putAll m a bs) x =
      if a ≤ x ∧ x < a + bs.length then bs[x - a]? else Memory.byteAt m x := by
  induction bs generalizing m a with
  | nil =>
    have : ¬(a ≤ x ∧ x < a) := by omega
    simp [Memory.putAll, this]
  | cons b bs ih =>
    rw [Memory.putAll, ih, Memory.byteAt_put]
    by_cases hxa : x = a
    · subst hxa; simp
    · by_cases hin : a + 1 ≤ x ∧ x < a + 1 + bs.length
      · have h1 : a ≤ x ∧ x < a + (b :: bs).length := by simp; omega
        have h2 : x - a = (x - (a + 1)) + 1 := by omega
        rw [if_pos hin, if_pos h1, h2, List.getElem?_cons_succ]
      · have h1 : ¬(a ≤ x ∧ x < a + (b :: bs).length) := by simp; omega
        rw [if_neg hin, if_neg h1, if_neg hxa]

theorem Memory.byteAt_putAll_of_mem {bs : List Byte} {m : Memory} {a j : Nat} (h : j < bs.length) :
    Memory.byteAt (Memory.putAll m a bs) (a + j) = some bs[j] := by
  rw [Memory.byteAt_putAll, if_pos (by omega)]
  simp [h]

/-! ## The canonical form -/

/-- The form of a memory with a first cell: the rest has the form and begins above it. -/
theorem Memory.wf_cons (c : Nat × Byte) (m : Memory) :
    Memory.wf (c :: m) = true ↔ (∀ d ∈ m.head?, c.1 < d.1) ∧ Memory.wf m = true := by
  cases m <;> simp [Memory.wf]

theorem Memory.head_put (m : Memory) (a : Nat) (b : Byte) (c : Nat) (hca : c < a) (hm : ∀ d ∈ m.head?, c < d.1) :
    ∀ d ∈ (Memory.put m a b).head?, c < d.1 := by
  cases m with
  | nil => simpa [Memory.put] using hca
  | cons d rest =>
    obtain ⟨d, v⟩ := d
    simp only [Memory.put]
    split_ifs <;> simp_all

/-- Storing a byte keeps the canonical form. -/
theorem Memory.wf_put {m : Memory} (h : Memory.wf m = true) (a : Nat) (b : Byte) :
    Memory.wf (Memory.put m a b) = true := by
  induction m with
  | nil => rfl
  | cons cell rest ih =>
    obtain ⟨c, v⟩ := cell
    obtain ⟨hhead, hrest⟩ := (Memory.wf_cons _ _).1 h
    simp only [Memory.put]
    split_ifs with hlt heq
    · exact (Memory.wf_cons _ _).2 ⟨by simpa using hlt, h⟩
    · subst heq; exact (Memory.wf_cons _ _).2 ⟨hhead, hrest⟩
    · exact (Memory.wf_cons _ _).2 ⟨Memory.head_put _ _ _ _ (by omega) hhead, ih hrest⟩

/-- Storing bytes keeps the canonical form. -/
theorem Memory.wf_putAll {m : Memory} (h : Memory.wf m = true) (a : Nat) (bs : List Byte) :
    Memory.wf (Memory.putAll m a bs) = true := by
  induction bs generalizing m a with
  | nil => exact h
  | cons b bs ih => exact ih (Memory.wf_put h a b) (a + 1)

/-- Every cell lies above the first. -/
theorem Memory.lt_of_wf {c : Nat × Byte} {m : Memory} (h : Memory.wf (c :: m) = true) : ∀ d ∈ m, c.1 < d.1 := by
  induction m generalizing c with
  | nil => simp
  | cons e rest ih =>
    obtain ⟨hhead, hrest⟩ := (Memory.wf_cons _ _).1 h
    have hce : c.1 < e.1 := hhead e (by simp)
    intro d hd
    rcases List.mem_cons.1 hd with rfl | hd
    · exact hce
    · exact hce.trans (ih hrest d hd)

/-! ## The range of what is stored -/

theorem Memory.mem_put {m : Memory} {a : Nat} {b : Byte} {c : Nat × Byte} (h : c ∈ Memory.put m a b) :
    c = (a, b) ∨ c ∈ m := by
  induction m with
  | nil => simpa [Memory.put] using h
  | cons cell rest ih =>
    simp only [Memory.put] at h
    split_ifs at h <;> simp_all <;> tauto

theorem Memory.mem_putAll {bs : List Byte} {m : Memory} {a : Nat} {c : Nat × Byte}
    (h : c ∈ Memory.putAll m a bs) : (a ≤ c.1 ∧ c.1 < a + bs.length) ∨ c ∈ m := by
  induction bs generalizing m a with
  | nil => exact .inr h
  | cons b bs ih =>
    rcases ih h with h | h
    · left; simp; omega
    · rcases Memory.mem_put h with rfl | h
      · left; simp
      · exact .inr h

/-! ## The buffer of a state -/

theorem msgByte_congr {s t : State} (hm : t.msgbuf = s.msgbuf) (he : t.epoch = s.epoch) (a : Nat) :
    msgByte t a = msgByte s a := by
  simp [msgByte, hm, he]

theorem memRead_congr {s t : State} (h : ∀ a, msgByte t a = msgByte s a) (a n : Nat) :
    memRead t a n = memRead s a n := by
  simp [memRead, h]

@[simp] theorem length_memRead (s : State) (a n : Nat) : (memRead s a n).length = n := by
  simp [memRead]

@[simp] theorem getElem_memRead (s : State) (a n j : Nat) (h : j < (memRead s a n).length) :
    (memRead s a n)[j] = msgByte s (a + j) := by
  simp [memRead]

/-- A byte of the buffer after MemWrite(a, len(m), m). -/
theorem msgByte_memWrite (s : State) (a : Nat) (m : List Byte) (x : Nat) :
    msgByte (memWrite a m s) x = if a ≤ x ∧ x < a + m.length then m.getD (x - a) 0 else msgByte s x := by
  simp only [msgByte, memWrite_msgbuf, memWrite_epoch, Memory.byteAt_putAll]
  split_ifs with h
  · have : x - a < m.length := by omega
    simp [this, List.getD_eq_getElem?_getD]
  · rfl

/-- Reading back what was written. -/
theorem memRead_memWrite (s : State) (a : Nat) (m : List Byte) : memRead (memWrite a m s) a m.length = m := by
  apply List.ext_getElem (by simp)
  intro j h1 h2
  have hj : a ≤ a + j ∧ a + j < a + m.length := ⟨by omega, by omega⟩
  rw [getElem_memRead, msgByte_memWrite, if_pos hj]
  simp [h2]

end Sys2Proof.Machine
end

