-- ==== Sys2Proof/Laws/Ops.lean ====
section
/-! SUPPORT. The shared operations: parameters, busy, checks and completion, the meanings as completions, and what a step
can do. -/

namespace Sys2Proof

/-! ## Parameters (00_scope.md R10, R11) -/

theorem Config.eight_le_msgbufBytes : 8 ≤ Config.msgbufBytes := by unfold Config.msgbufBytes; omega

theorem Config.msgbufBytes_mod_eight : Config.msgbufBytes % 8 = 0 := by unfold Config.msgbufBytes; omega

theorem Config.msgbufBytes_le : Config.msgbufBytes ≤ 2 ^ 32 := by
  have := Config.lastBufferWord.isLt
  unfold Config.msgbufBytes
  omega

theorem Config.coreBase_mod : Config.coreBase % 0x1000 = 0 := by unfold Config.coreBase; omega

namespace Machine

/-! ## Busy -/

@[simp] theorem busy_eq_false_iff (s : State) : busy s = false ↔ s.pending = none := by
  simp [busy]

@[simp] theorem busy_eq_true_iff (s : State) : busy s = true ↔ s.pending ≠ none := by
  simp [busy, Option.isSome_iff_ne_none]

theorem acceptWhenIdle_of_idle {f : State → State} {s : State} (h : s.pending = none) :
    acceptWhenIdle f s = f s := by
  simp [acceptWhenIdle, h]

theorem acceptWhenIdle_of_busy {f : State → State} {s : State} (h : s.pending ≠ none) :
    acceptWhenIdle f s = setOverrun s := by
  simp [acceptWhenIdle, h]

/-! ## Checks and completion -/

/-- No check fails exactly when every one passes. -/
theorem firstFailure_eq_none_iff (cs : List Check) (s : State) :
    firstFailure cs s = none ↔ ∀ c ∈ cs, checkPasses c s = true := by
  induction cs with
  | nil => simp [firstFailure]
  | cons c cs ih => by_cases h : checkPasses c s = true <;> simp [firstFailure, h, ih]

theorem errValue_pos_le (e : ErrCode) : 1 ≤ (errValue e).val ∧ (errValue e).val ≤ 4 := by cases e <;> decide

/-- Everything a completion can do: one error raised, or the writes applied. -/
theorem completeChecked_cases (cs : List Check) (w : State → Writes) (s : State) :
    (∃ e, firstFailure cs s = some e ∧ completeChecked cs w s = raiseError e s) ∨
      (firstFailure cs s = none ∧ completeChecked cs w s = succeed (w s) s) := by
  unfold completeChecked
  cases firstFailure cs s <;> simp

theorem completeChecked_of_pass {cs : List Check} {w : State → Writes} {s : State}
    (h : ∀ c ∈ cs, checkPasses c s = true) : completeChecked cs w s = succeed (w s) s := by
  simp [completeChecked, (firstFailure_eq_none_iff cs s).2 h]

/-! ## The meanings as completions -/

/-- The checks of a command, in the order of 40_command_cycle.md R155. -/
def checksOf : Instr → List Check
  | .nop => []
  | .keysched => [.keyLoaded]
  | .blkEnc => [.keyLoaded]
  | .blkDec => [.keyLoaded]
  | .msgEncEcb => [.keyLoaded, .encryptLength]
  | .msgDecEcb => [.keyLoaded, .decryptLength]
  | .msgEncCbc => [.keyLoaded, .ivLoaded, .encryptLength]
  | .msgDecCbc => [.keyLoaded, .ivLoaded, .decryptLength]

/-- What a command writes when its checks pass. -/
def writesOf : Instr → State → Writes
  | .nop => fun _ => {}
  | .keysched => keyschedWrites
  | .blkEnc => blkEncWrites
  | .blkDec => blkDecWrites
  | .msgEncEcb => msgEncEcbWrites
  | .msgDecEcb => msgDecEcbWrites
  | .msgEncCbc => msgEncCbcWrites
  | .msgDecCbc => msgDecCbcWrites

/-- Every command is a completion with its own checks and writes. -/
theorem exec_eq (i : Instr) (s : State) : exec i s = .next (completeChecked (checksOf i) (writesOf i) s) := by
  cases i <;> rfl

/-- Everything a command can do. -/
theorem exec_cases {i : Instr} {s t : State} (h : exec i s = .next t) :
    (∃ e, firstFailure (checksOf i) s = some e ∧ t = raiseError e s) ∨
      (firstFailure (checksOf i) s = none ∧ t = succeed (writesOf i s) s) := by
  rw [exec_eq] at h
  injection h with h
  subst h
  exact completeChecked_cases _ _ _

/-! ## What a bus access can do -/

/-- Everything a register write can do. -/
theorem writeReg_cases (r : RegName) (w : Word64) (s : State) :
    writeReg r w s = s ∨ writeReg r w s = writeCtrl w s ∨ writeReg r w s = writeStatus w s ∨
      (s.pending ≠ none ∧ writeReg r w s = setOverrun s) ∨
      (s.pending = none ∧ (writeReg r w s = issue w s ∨ writeReg r w s = loadKey w s ∨ writeReg r w s = loadIv w s ∨
        writeReg r w s = loadDin w s ∨ writeReg r w s = loadMsgLen w s)) := by
  by_cases hp : s.pending = none
  · cases r <;> simp [writeReg, acceptWhenIdle, hp]
  · cases r <;> simp [writeReg, acceptWhenIdle, hp]

/-- The transaction's offset, when the core decodes its address. -/
theorem offset?_eq_some {t : BusTxn} {off : Nat} (h : t.offset? = some off) :
    t.addr = Config.coreBase + off ∧ off < 0x1000 + Config.msgbufBytes := by
  unfold BusTxn.offset? at h
  split at h
  · injection h; omega
  · cases h

theorem offset?_coreBase_add {kind : BusKind} {off size : Nat} {w : Word64}
    (h : off < 0x1000 + Config.msgbufBytes) :
    (BusTxn.mk kind (Config.coreBase + off) size w).offset? = some off := by
  have h1 : Config.coreBase ≤ Config.coreBase + off ∧
      Config.coreBase + off - Config.coreBase < 0x1000 + Config.msgbufBytes := by omega
  simp [BusTxn.offset?, h]

/-- The transaction is one the core answers with okay. -/
theorem wellFormed_iff (t : BusTxn) :
    t.wellFormed = true ↔ ∃ off, t.offset? = some off ∧ t.size = 8 ∧ off % 8 = 0 := by
  unfold BusTxn.wellFormed
  cases t.offset? <;> simp

/-- A transaction the core answers with okay is the access at its offset. -/
theorem busAccess_of_offset {t : BusTxn} {off : Nat} (ho : t.offset? = some off) (hs : t.size = 8)
    (ha : off % 8 = 0) (s : State) : busAccess t s = accessAt t.kind off t.wdata s := by
  simp [busAccess, ho, hs, ha]

/-- An access to a named register, by host instruction or not. -/
theorem regAt_regOffset (r : RegName) : regAt (regOffset r) = some r := by
  cases r with
  | rk i => revert i; decide
  | _ => rfl

/-- Everything an aligned 8-byte read can do. -/
theorem accessAt_read_cases (off : Nat) (w : Word64) (s : State) :
    (∃ v, accessAt .read off w s = (.okayData v, s)) ∨
      (s.pending ≠ none ∧ accessAt .read off w s = (.okayData (Config.busyReadDraw s.draws), useDraw s)) := by
  by_cases hpage : off < 0x1000
  · cases hr : regAt off with
    | none => exact .inl ⟨0, by simp [accessAt, hpage, readPage, hr]⟩
    | some r =>
      by_cases hb : s.pending ≠ none ∧ unspecifiedWhileBusy r = true
      · exact .inr ⟨hb.1, by simp [accessAt, hpage, readPage, hr, hb, readUnspecified]⟩
      · have hb' : (busy s && unspecifiedWhileBusy r) = false := by simpa using hb
        exact .inl ⟨readReg r s, by simp [accessAt, hpage, readPage, hr, hb']⟩
  · by_cases hb : s.pending ≠ none
    · exact .inr ⟨hb, by simp [accessAt, hpage, readBuffer, hb, readUnspecified]⟩
    · have hb' : s.pending = none := by simpa using hb
      exact .inl ⟨bufferWord s (off - 0x1000), by simp [accessAt, hpage, readBuffer, hb']⟩

/-- Everything an aligned 8-byte write can do. -/
theorem accessAt_write_cases {off : Nat} (hoff : off < 0x1000 + Config.msgbufBytes) (ha : off % 8 = 0) (w : Word64)
    (s : State) :
    (∃ r, accessAt .write off w s = (.okay, writeReg r w s)) ∨
      (∃ a, a % 8 = 0 ∧ a < Config.msgbufBytes ∧
        accessAt .write off w s = (.okay, acceptWhenIdle (memWrite a (bitsToBytes w)) s)) ∨
      accessAt .write off w s = (.okay, s) := by
  by_cases hpage : off < 0x1000
  · cases hr : regAt off with
    | none => exact .inr (.inr (by simp [accessAt, hpage, writePage, hr]))
    | some r => exact .inl ⟨r, by simp [accessAt, hpage, writePage, hr]⟩
  · exact .inr (.inl ⟨off - 0x1000, by omega, by omega, by simp [accessAt, hpage, writeBuffer]⟩)

/-- Everything a bus access can do. -/
theorem busAccess_cases (t : BusTxn) (s : State) :
    busAccess t s = (.notDecoded, s) ∨ busAccess t s = (.error, s) ∨
      (t.kind = .read ∧ ∃ v, busAccess t s = (.okayData v, s)) ∨
      (t.kind = .read ∧ s.pending ≠ none ∧ busAccess t s = (.okayData (Config.busyReadDraw s.draws), useDraw s)) ∨
      (t.kind = .write ∧ ∃ r, busAccess t s = (.okay, writeReg r t.wdata s)) ∨
      (t.kind = .write ∧ ∃ a, a % 8 = 0 ∧ a < Config.msgbufBytes ∧
        busAccess t s = (.okay, acceptWhenIdle (memWrite a (bitsToBytes t.wdata)) s)) ∨
      (t.kind = .write ∧ busAccess t s = (.okay, s)) := by
  cases ho : t.offset? with
  | none => left; simp [busAccess, ho]
  | some off =>
    by_cases hok : t.size = 8 ∧ off % 8 = 0
    · rw [busAccess_of_offset ho hok.1 hok.2]
      cases hk : t.kind with
      | read => rcases accessAt_read_cases off t.wdata s with h | h <;> tauto
      | write =>
        rcases accessAt_write_cases (offset?_eq_some ho).2 hok.2 t.wdata s with h | h | h
        · exact .inr (.inr (.inr (.inr (.inl ⟨rfl, h⟩))))
        · exact .inr (.inr (.inr (.inr (.inr (.inl ⟨rfl, h⟩)))))
        · exact .inr (.inr (.inr (.inr (.inr (.inr ⟨rfl, h⟩)))))
    · right; left; simp only [busAccess, ho, if_neg hok]

/-! ## What a step can do -/

/-- Everything the core's step can do. -/
theorem coreTurn_cases {s t : State} (h : coreTurn s = .next t) :
    (s.pending = none ∧ t = s) ∨
      (∃ op i, s.pending = some op ∧ decode op = .legal i ∧ exec i s = .next t) ∨
      (∃ op b, s.pending = some op ∧ decode op = .illegal b ∧ t = raiseError .illegalCmd s) := by
  unfold coreTurn at h
  split at h
  · injection h with h; exact .inl ⟨‹_›, h.symm⟩
  · split at h
    · exact .inr (.inl ⟨_, _, ‹_›, ‹_›, h⟩)
    · injection h with h; exact .inr (.inr ⟨_, _, ‹_›, ‹_›, h.symm⟩)

/-- The core's step always answers a next state. -/
theorem coreTurn_next (s : State) : ∃ t, coreTurn s = .next t := by
  unfold coreTurn
  split
  · exact ⟨_, rfl⟩
  · split
    · exact ⟨_, exec_eq _ _⟩
    · exact ⟨_, rfl⟩

/-- Everything a host step can do when it answers a next state. -/
theorem hostTurn_cases {x : BusTxn} {s t : State} (h : hostTurn x s = .next t) :
    (x.kind = .read ∧ ∃ v, t = setAnswer (.okayData v) s) ∨
      (x.kind = .read ∧ s.pending ≠ none ∧ t = setAnswer (.okayData (Config.busyReadDraw s.draws)) (useDraw s)) ∨
      (x.kind = .write ∧ ∃ r, t = setAnswer .okay (writeReg r x.wdata s)) ∨
      (x.kind = .write ∧ ∃ a, a % 8 = 0 ∧ a < Config.msgbufBytes ∧
        t = setAnswer .okay (acceptWhenIdle (memWrite a (bitsToBytes x.wdata)) s)) ∨
      (x.kind = .write ∧ t = setAnswer .okay s) := by
  unfold hostTurn at h
  rcases busAccess_cases x s with hb | hb | ⟨hk, v, hb⟩ | ⟨hk, hp, hb⟩ | ⟨hk, r, hb⟩ | ⟨hk, a, ha, hal, hb⟩ | ⟨hk, hb⟩ <;>
    rw [hb] at h <;> simp only at h
  · cases h
  · cases h
  · injection h with h; exact .inl ⟨hk, v, h.symm⟩
  · injection h with h; exact .inr (.inl ⟨hk, hp, h.symm⟩)
  · injection h with h; exact .inr (.inr (.inl ⟨hk, r, h.symm⟩))
  · injection h with h; exact .inr (.inr (.inr (.inl ⟨hk, a, ha, hal, h.symm⟩)))
  · injection h with h; exact .inr (.inr (.inr (.inr ⟨hk, h.symm⟩)))

/-- Everything a step can do when it answers a next state: the core's step, a host access, a reset. -/
theorem step_cases {s t : State} (h : step s = .next t) :
    (s.agenda = [] ∧ coreTurn s = .next t) ∨
      (∃ rest, s.agenda = .core :: rest ∧ coreTurn (setAgenda rest s) = .next t) ∨
      (∃ x rest, s.agenda = .host x :: rest ∧ hostTurn x (setAgenda rest s) = .next t) ∨
      (∃ rest, s.agenda = .reset :: rest ∧ t = resetCore (setAgenda rest s)) := by
  unfold step nextTurn at h
  split at h
  · exact .inl ⟨‹_›, h⟩
  · rename_i turn rest heq
    cases turn with
    | core => exact .inr (.inl ⟨rest, heq, h⟩)
    | host x => exact .inr (.inr (.inl ⟨x, rest, heq, h⟩))
    | reset => injection h with h; exact .inr (.inr (.inr ⟨rest, heq, h.symm⟩))

end Machine

end Sys2Proof
end

