-- ==== Sys2Proof/Laws/Bits.lean ====
section
/-! SUPPORT. The datapath's bits: the permutation engine, the bit converter, the S-box array, rotation. -/

namespace Sys2Proof.Machine

/-! ## Permutation engine -/

theorem testBit_double_add (x : Nat) (b : Bool) (j : Nat) :
    (2 * x + b.toNat).testBit j = if j = 0 then b else x.testBit (j - 1) := by
  cases j with
  | zero => cases b <;> simp [Nat.testBit_zero]
  | succ j =>
    have : (2 * x + b.toNat) / 2 = x := by cases b <;> simp; omega
    simp [Nat.testBit_succ, this]

/-- A bit of the selected number, counted from the least significant end. -/
theorem testBit_selectBits {n : Nat} (s : BitVec n) (table : List Nat) (j : Nat) (h : j < table.length) :
    (selectBits s table).testBit j = s.getMsbD (table[table.length - 1 - j] - 1) := by
  induction table using List.reverseRecOn generalizing j with
  | nil => simp at h
  | append_singleton t k ih =>
    have hsel : selectBits s (t ++ [k]) = 2 * selectBits s t + (s.getMsbD (k - 1)).toNat := by
      simp [selectBits, List.foldl_append]
    rw [hsel, testBit_double_add]
    split
    · subst j; simp
    · have hj : j - 1 < t.length := by simp at h; omega
      rw [ih (j - 1) hj, List.getElem_append_left (by simp at h ⊢; omega)]
      congr 3
      simp
      omega

/-- R183: element i of permute(s, T) is element T[i+1] - 1 of s. -/
theorem getMsbD_permute {n : Nat} (m : Nat) (table : List Nat) (s : BitVec n) (hm : table.length = m) (i : Nat)
    (hi : i < m) : (permute m table s).getMsbD i = s.getMsbD (table[i] - 1) := by
  subst hm
  have h : table.length - 1 - i < table.length := by omega
  simp only [permute, BitVec.getMsbD, BitVec.getLsbD_ofNat, hi, decide_true, Bool.true_and, h]
  rw [testBit_selectBits s table _ h]
  simp only [BitVec.getMsbD]
  congr 5 <;> omega

/-- Two permuted sequences are equal when the selected elements are. -/
theorem permute_congr {n : Nat} (m : Nat) (table : List Nat) (s t : BitVec n) (hm : table.length = m)
    (h : ∀ k ∈ table, s.getMsbD (k - 1) = t.getMsbD (k - 1)) : permute m table s = permute m table t := by
  apply BitVec.eq_of_getMsbD_eq
  intro i hi
  rw [getMsbD_permute m table s hm i hi, getMsbD_permute m table t hm i hi]
  exact h _ (List.getElem_mem _)

/-! ## Tables: every entry is in range, so no element outside the input is ever selected (R184, R353) -/

/-- R184, by evaluation: every entry of every table is in range for the input it is used with. -/
theorem tables_fit : ∀ use ∈ tableUses, tableFits use.1 use.2.1 use.2.2 = true := by decide

/-- What it means that a table fits. -/
theorem tableFits_iff (n m : Nat) (table : List Nat) :
    tableFits n m table = true ↔ table.length = m ∧ ∀ k ∈ table, 1 ≤ k ∧ k ≤ n := by
  simp [tableFits]

theorem tableIP_range : tableIP.length = 64 ∧ ∀ k ∈ tableIP, 1 ≤ k ∧ k ≤ 64 :=
  (tableFits_iff _ _ _).1 (tables_fit (64, 64, tableIP) (by simp [tableUses]))
theorem tableIPInv_range : tableIPInv.length = 64 ∧ ∀ k ∈ tableIPInv, 1 ≤ k ∧ k ≤ 64 :=
  (tableFits_iff _ _ _).1 (tables_fit (64, 64, tableIPInv) (by simp [tableUses]))
theorem tableE_range : tableE.length = 48 ∧ ∀ k ∈ tableE, 1 ≤ k ∧ k ≤ 32 :=
  (tableFits_iff _ _ _).1 (tables_fit (32, 48, tableE) (by simp [tableUses]))
theorem tableP_range : tableP.length = 32 ∧ ∀ k ∈ tableP, 1 ≤ k ∧ k ≤ 32 :=
  (tableFits_iff _ _ _).1 (tables_fit (32, 32, tableP) (by simp [tableUses]))
theorem tablePC1_range : tablePC1.length = 56 ∧ ∀ k ∈ tablePC1, 1 ≤ k ∧ k ≤ 64 :=
  (tableFits_iff _ _ _).1 (tables_fit (64, 56, tablePC1) (by simp [tableUses]))
theorem tablePC2_range : tablePC2.length = 48 ∧ ∀ k ∈ tablePC2, 1 ≤ k ∧ k ≤ 56 :=
  (tableFits_iff _ _ _).1 (tables_fit (56, 48, tablePC2) (by simp [tableUses]))

/-- Eight boxes of four rows of sixteen entries below 16, so `substitute` never leaves the table (R240, R353). -/
theorem sboxes_shape : sboxes.length = 8 ∧
    ∀ box ∈ sboxes, box.length = 4 ∧ ∀ row ∈ box, row.length = 16 ∧ ∀ v ∈ row, v < 16 := by decide

theorem sboxRow_lt (b : BitVec 6) : sboxRow b < 4 := by revert b; decide
theorem sboxCol_lt (b : BitVec 6) : sboxCol b < 16 := by revert b; decide

/-! ## Key schedule -/

/-- R212: element i of rotl(h, n). -/
theorem getMsbD_rotl (h : KeyHalf) (n i : Nat) (hi : i < 28) :
    (rotl h n).getMsbD i = h.getMsbD ((n + i) % 28) := by
  simp [rotl, BitVec.getMsbD_rotateLeft, hi]

@[simp] theorem length_roundKeysFrom (c d : KeyHalf) (ns : List Nat) :
    (roundKeysFrom c d ns).length = ns.length := by
  induction ns generalizing c d with
  | nil => rfl
  | cons n ns ih => simp [roundKeysFrom, ih]

@[simp] theorem length_deriveRoundKeys (k : Word64) : (deriveRoundKeys k).length = 16 := by
  simp [deriveRoundKeys, shifts]

/-- RK[i] holds round key i of the list. -/
theorem getElem_keyBank (ks : List RoundKey) (i : Nat) (hi : i < 16) : (keyBank ks)[i] = ks.getD i 0 := by
  simp [keyBank]

/-! ## Bit converter -/

@[simp] theorem length_bitsToBytes {w : Nat} (s : BitVec w) : (bitsToBytes s).length = w / 8 := by
  simp [bitsToBytes]

/-- R181: the bits of byte j. -/
theorem getLsbD_getElem_bitsToBytes {w : Nat} (s : BitVec w) (j t : Nat) (h : j < (bitsToBytes s).length)
    (ht : t < 8) : ((bitsToBytes s)[j]).getLsbD t = s.getLsbD (w - 8 - 8 * j + t) := by
  simp [bitsToBytes, ht]

theorem numOfBytes_append (m : List Byte) (b : Byte) : numOfBytes (m ++ [b]) = 256 * numOfBytes m + b.toNat := by
  simp [numOfBytes, List.foldl_append]

theorem testBit_bytes_add (x : Nat) (b : Byte) (j : Nat) :
    (256 * x + b.toNat).testBit j = if j < 8 then b.getLsbD j else x.testBit (j - 8) := by
  have hb : b.toNat < 2 ^ 8 := b.isLt
  have : 256 * x + b.toNat = 2 ^ 8 * x + b.toNat := by norm_num
  rw [this, Nat.testBit_two_pow_mul_add x hb]
  rfl

/-- A bit of num(m), counted from the least significant end. -/
theorem testBit_numOfBytes (m : List Byte) (j : Nat) (h : j < 8 * m.length) :
    (numOfBytes m).testBit j = (m[m.length - 1 - j / 8]'(by omega)).getLsbD (j % 8) := by
  induction m using List.reverseRecOn generalizing j with
  | nil => simp at h
  | append_singleton m b ih =>
    rw [numOfBytes_append, testBit_bytes_add]
    have hlen : (m ++ [b]).length = m.length + 1 := by simp
    split
    · rename_i hj
      have h0 : j / 8 = 0 := by omega
      have h1 : j % 8 = j := by omega
      simp [h0, h1]
    · have hj : j - 8 < 8 * m.length := by rw [hlen] at h; omega
      rw [ih (j - 8) hj, List.getElem_append_left (by rw [hlen]; omega)]
      have h1 : (j - 8) % 8 = j % 8 := by omega
      rw [h1]
      congr 2
      rw [hlen]
      omega

/-- R180: the bits of the sequence, counted from the least significant end. -/
theorem getLsbD_bytesToBits (w : Nat) (m : List Byte) (hw : w = 8 * m.length) (j : Nat) (h : j < w) :
    (bytesToBits w m).getLsbD j = (m[m.length - 1 - j / 8]'(by omega)).getLsbD (j % 8) := by
  simp only [bytesToBits, BitVec.getLsbD_ofNat, h, decide_true, Bool.true_and]
  exact testBit_numOfBytes m j (by omega)

end Sys2Proof.Machine
end

