-- ==== Sys2Proof/Laws/HostSteps.lean ====
section
/-! SUPPORT. A host instruction as the next turn: what each form does to a state, and which access a step ran. -/

namespace Sys2Proof.Machine

theorem accessStep_eq (x : BusTxn) (s : State) : accessStep x s = hostTurn x s := rfl

theorem coreStep_eq (s : State) : coreStep s = coreTurn s := rfl

/-- An aligned 8-byte access in the window is the access at its offset, its answer stored. -/
theorem accessStep_offset {kind : BusKind} {off : Nat} {w : Word64} (s : State)
    (h : off < 0x1000 + Config.msgbufBytes) (ha : off % 8 = 0) :
    accessStep ⟨kind, Config.coreBase + off, 8, w⟩ s =
      match accessAt kind off w s with
      | (.notDecoded, _) => .refused .outsideWindow
      | (.error, _) => .fault .busError
      | (.okay, s') => .next (setAnswer .okay s')
      | (.okayData v, s') => .next (setAnswer (.okayData v) s') := by
  rw [accessStep_eq, hostTurn, busAccess_of_offset (offset?_coreBase_add h) rfl ha] <;> rfl

/-- A register stands in the register page, aligned. -/
theorem regOffset_lt (r : RegName) : regOffset r < 0x1000 ∧ regOffset r % 8 = 0 := by
  cases r with
  | rk i => simp [regOffset]; omega
  | _ => decide

/-- The register at an aligned offset is the one with that offset. -/
theorem regAt_inv {off : Nat} {r : RegName} (h : regAt off = some r) (h8 : off % 8 = 0) : off = regOffset r := by
  unfold regAt at h
  split at h <;> try (injection h with h; subst h; rfl)
  split at h
  · injection h with h
    subst h
    simp [regOffset]
    omega
  · cases h

theorem hostStep_wr (r : RegName) (w : Word64) (s : State) :
    hostStep (.wr r w) s = .next (setAnswer .okay (writeReg r w s)) := by
  obtain ⟨h1, h2⟩ := regOffset_lt r
  rw [hostStep, hostTransaction, hostEncoding]
  dsimp only
  rw [accessStep_offset s (by omega) h2]
  simp [accessAt, h1, writePage, regAt_regOffset]

theorem hostStep_rd (r : RegName) (s : State) (h : s.pending = none ∨ unspecifiedWhileBusy r = false) :
    hostStep (.rd r) s = .next (setAnswer (.okayData (readReg r s)) s) := by
  obtain ⟨h1, h2⟩ := regOffset_lt r
  rw [hostStep, hostTransaction, hostEncoding]
  dsimp only
  rw [accessStep_offset s (by omega) h2]
  have hb : (busy s && unspecifiedWhileBusy r) = false := by rcases h with h | h <;> simp [h]
  simp [accessAt, h1, readPage, regAt_regOffset, hb]

theorem hostStep_rd_busy (r : RegName) (s : State) (h : s.pending ≠ none) (hr : unspecifiedWhileBusy r = true) :
    hostStep (.rd r) s = .next (setAnswer (.okayData (Config.busyReadDraw s.draws)) (useDraw s)) := by
  obtain ⟨h1, h2⟩ := regOffset_lt r
  rw [hostStep, hostTransaction, hostEncoding]
  dsimp only
  rw [accessStep_offset s (by omega) h2]
  simp [accessAt, h1, readPage, regAt_regOffset, h, hr, readUnspecified]

theorem hostStep_rdbuf (w : Nat) (s : State) (hw : 8 * w + 8 ≤ Config.msgbufBytes) (h : s.pending = none) :
    hostStep (.rdbuf w) s = .next (setAnswer (.okayData (bufferWord s (8 * w))) s) := by
  rw [hostStep, hostTransaction, hostEncoding]
  dsimp only
  rw [accessStep_offset s (by omega) (by omega)]
  simp [accessAt, readBuffer, h]

theorem hostStep_rdbuf_busy (w : Nat) (s : State) (hw : 8 * w + 8 ≤ Config.msgbufBytes) (h : s.pending ≠ none) :
    hostStep (.rdbuf w) s = .next (setAnswer (.okayData (Config.busyReadDraw s.draws)) (useDraw s)) := by
  rw [hostStep, hostTransaction, hostEncoding]
  dsimp only
  rw [accessStep_offset s (by omega) (by omega)]
  simp [accessAt, readBuffer, h, readUnspecified]

theorem hostStep_wrbuf (a : Nat) (w : Word64) (s : State) (hw : 8 * a + 8 ≤ Config.msgbufBytes) :
    hostStep (.wrbuf a w) s =
      .next (setAnswer .okay (acceptWhenIdle (memWrite (8 * a) (bitsToBytes w)) s)) := by
  rw [hostStep, hostTransaction, hostEncoding]
  dsimp only
  rw [accessStep_offset s (by omega) (by omega)]
  simp [accessAt, writeBuffer]

/-- Everything a write access can do, with the register it names. -/
theorem hostTurn_write {x : BusTxn} {s t : State} (hk : x.kind = .write) (he : hostTurn x s = .next t) :
    (∃ r, x = hostTransaction (.wr r x.wdata) ∧ t = setAnswer .okay (writeReg r x.wdata s)) ∨
      (∃ a, a % 8 = 0 ∧ a < Config.msgbufBytes ∧
        t = setAnswer .okay (acceptWhenIdle (memWrite a (bitsToBytes x.wdata)) s)) ∨
      t = setAnswer .okay s := by
  obtain ⟨kind, addr, size, w⟩ := x
  simp only at hk
  subst hk
  unfold hostTurn at he
  cases ho : (BusTxn.mk .write addr size w).offset? with
  | none => simp [busAccess, ho] at he
  | some off =>
    by_cases hok : size = 8 ∧ off % 8 = 0
    · obtain ⟨h1, h2⟩ := hok
      rw [busAccess_of_offset ho h1 h2] at he
      obtain ⟨hadr, hlt⟩ := offset?_eq_some ho
      simp only at hadr
      by_cases hpage : off < 0x1000
      · cases hr : regAt off with
        | none => simp [accessAt, hpage, writePage, hr] at he; exact .inr (.inr he.symm)
        | some r =>
          simp [accessAt, hpage, writePage, hr] at he
          refine .inl ⟨r, ?_, he.symm⟩
          simp [hostTransaction, hostEncoding, hadr, h1, regAt_inv hr h2]
      · simp [accessAt, hpage, writeBuffer] at he
        exact .inr (.inl ⟨off - 0x1000, by omega, by omega, he.symm⟩)
    · simp only [busAccess, ho, if_neg hok] at he
      cases he

/-- A transaction the core answers with okay gives a next state. -/
theorem hostTurn_of_wellFormed {x : BusTxn} (h : x.wellFormed = true) (s : State) : ∃ t, hostTurn x s = .next t := by
  obtain ⟨off, ho, h8, ha⟩ := (wellFormed_iff x).1 h
  unfold hostTurn
  rw [busAccess_of_offset ho h8 ha]
  cases hk : x.kind with
  | read => rcases accessAt_read_cases off x.wdata s with ⟨v, h⟩ | ⟨_, h⟩ <;> rw [h] <;> exact ⟨_, rfl⟩
  | write =>
    rcases accessAt_write_cases (offset?_eq_some ho).2 ha x.wdata s with ⟨v, h⟩ | ⟨_, _, _, h⟩ | h <;> rw [h] <;>
      exact ⟨_, rfl⟩

theorem run_succ_next {n : Nat} {s t : State} (h : step s = .next t) :
    Sys2Proof.core.run (n + 1) s = Sys2Proof.core.run n t := by
  have : Sys2Proof.core.step s = .next t := h
  simp [Host.Core.run, this]

/-- The bank holds the list it was filled from. -/
theorem keyBank_toList (ks : List RoundKey) (h : ks.length = 16) : (keyBank ks).toList = ks := by
  apply List.ext_getElem (by simp [h])
  intro i h1 h2
  have hi : i < 16 := by omega
  rw [Vector.getElem_toList, getElem_keyBank ks i hi]
  simp [h2]

/-- A byte of MSGBUF after a command that writes `m` from buffer byte 0. -/
theorem msgByte_succeed (s : State) (w : Writes) (m : List Byte) (n : Nat) (hw : w.msg = some (m, n)) (a : Nat) :
    msgByte (succeed w s) a = if a < m.length then m.getD a 0 else msgByte s a := by
  have h1 := msgByte_memWrite s 0 m a
  have h2 : msgByte (succeed w s) a = msgByte (memWrite 0 m s) a := by
    apply msgByte_congr <;> simp [succeed, hw]
  rw [h2, h1]
  simp

/-- The memory is in its canonical form at reset. -/
theorem reset_memory_wf : Memory.wf State.reset.msgbuf = true := rfl

end Sys2Proof.Machine
end

