-- ==== Sys2Proof/Laws/HostPrograms.lean ====
section
/-! SUPPORT. What a move of a pseudo-instruction does, and runs cut in two. -/

namespace Sys2Proof.Machine

@[simp] theorem andThen_next {α β : Type} (a : α) (f : α → Host.Outcome β Fault Refusal) :
    andThen (.next a) f = f a := rfl

@[simp] theorem runPseudo_nil (p : Pseudo) (r : HostRun) : runPseudo p [] r = .next r := rfl

theorem runPseudo_cons {p : Pseudo} {m : Mover} {r r' : HostRun} (h : move p m r = .next r') (ms : List Mover) :
    runPseudo p (m :: ms) r = runPseudo p ms r' := by simp [runPseudo, h]

/-- A schedule cut in two. -/
theorem runPseudo_append {p : Pseudo} {as : List Mover} {r r' : HostRun} (h : runPseudo p as r = .next r')
    (bs : List Mover) : runPseudo p (as ++ bs) r = runPseudo p bs r' := by
  induction as generalizing r with
  | nil => injection h with h; rw [h]; rfl
  | cons a as ih =>
    simp only [runPseudo, List.cons_append] at h ⊢
    cases hm : move p a r with
    | next r1 => rw [hm] at h; exact ih h
    | fault f => rw [hm] at h; cases h
    | refused x => rw [hm] at h; cases h

/-- The host's move makes the next access. -/
theorem move_host {p : Pseudo} {r : HostRun} {h : HostInstr} {t : State} (hn : nextAccess p r.answers = some h)
    (hs : hostStep h r.state = .next t) : move p .host r = .next ⟨t, r.answers ++ t.answer.toList⟩ := by
  have : step (setAgenda (.host (hostTransaction h) :: r.state.agenda) r.state) = .next t := hs
  simp [move, hostMove, hn, this]

/-- The host's move after the end does nothing. -/
theorem move_host_ended {p : Pseudo} {r : HostRun} (h : ended p r = true) : move p .host r = .next r := by
  have : nextAccess p r.answers = none := by simpa [ended] using h
  simp [move, hostMove, this]

/-- The core's move is its step. -/
theorem move_core {p : Pseudo} {r : HostRun} {t : State} (h : coreTurn r.state = .next t) :
    move p .core r = .next ⟨t, r.answers⟩ := by
  have : step (setAgenda (.core :: r.state.agenda) r.state) = .next t := h
  simp [move, coreMove, this]

end Sys2Proof.Machine
end

