-- ==== Sys2Proof/Laws/Modes.lean ====
section
/-! SUPPORT. Blocks, padding and the mode functions: lengths, and cutting a message into blocks. -/

namespace Sys2Proof.Machine

/-! ## Blocks -/

/-- Induction over the blocks of a message of whole blocks. -/
theorem wholeBlocks_induction {motive : List Byte → Prop} (nil : motive [])
    (block : ∀ b0 b1 b2 b3 b4 b5 b6 b7 rest, rest.length % 8 = 0 → motive rest →
      motive (b0 :: b1 :: b2 :: b3 :: b4 :: b5 :: b6 :: b7 :: rest)) :
    ∀ m : List Byte, m.length % 8 = 0 → motive m
  | [], _ => nil
  | [_], h | [_, _], h | [_, _, _], h | [_, _, _, _], h | [_, _, _, _, _], h | [_, _, _, _, _, _], h
  | [_, _, _, _, _, _, _], h => by simp at h
  | b0 :: b1 :: b2 :: b3 :: b4 :: b5 :: b6 :: b7 :: rest, h => by
    have hr : rest.length % 8 = 0 := by simp at h; omega
    exact block b0 b1 b2 b3 b4 b5 b6 b7 rest hr (wholeBlocks_induction nil block rest hr)

/-- concat(blocks(m)) = m. -/
theorem flatten_blocks (m : List Byte) (h : m.length % 8 = 0) : (blocks m).flatten = m := by
  refine wholeBlocks_induction (motive := fun m => (blocks m).flatten = m) rfl ?_ m h
  intro b0 b1 b2 b3 b4 b5 b6 b7 rest _ ih
  simp [blocks, ih]

theorem length_of_mem_blocks (m : List Byte) : ∀ b ∈ blocks m, b.length = 8 := by
  induction m using blocks.induct with
  | case1 b0 b1 b2 b3 b4 b5 b6 b7 rest ih => simpa [blocks] using ih
  | case2 m h => simp [blocks]

theorem blocks_append (m n : List Byte) (h : m.length % 8 = 0) : blocks (m ++ n) = blocks m ++ blocks n := by
  refine wholeBlocks_induction (motive := fun m => blocks (m ++ n) = blocks m ++ blocks n) (by simp [blocks]) ?_ m h
  intro b0 b1 b2 b3 b4 b5 b6 b7 rest _ ih
  simp [blocks, ih]

theorem blocks_of_length_eight (b : List Byte) (h : b.length = 8) : blocks b = [b] := by
  match b, h with
  | [_, _, _, _, _, _, _, _], _ => rfl

/-- blocks(concat(bs)) = bs for a list of blocks. -/
theorem blocks_flatten (bs : List (List Byte)) (h : ∀ b ∈ bs, b.length = 8) : blocks bs.flatten = bs := by
  induction bs with
  | nil => rfl
  | cons b bs ih =>
    have hb := h b (by simp)
    rw [List.flatten_cons, blocks_append _ _ (by omega), blocks_of_length_eight b hb,
      ih fun c hc => h c (by simp [hc])]
    rfl

theorem length_flatten_of_blocks (bs : List (List Byte)) (h : ∀ b ∈ bs, b.length = 8) :
    bs.flatten.length = 8 * bs.length := by
  induction bs with
  | nil => rfl
  | cons b bs ih =>
    rw [List.flatten_cons, List.length_append, ih fun c hc => h c (by simp [hc]), h b (by simp), List.length_cons]
    omega

theorem length_blocks (m : List Byte) (h : m.length % 8 = 0) : 8 * (blocks m).length = m.length := by
  rw [← length_flatten_of_blocks _ (length_of_mem_blocks m), flatten_blocks m h]

/-! ## Padding -/

/-- R300: padded messages have a length that is a multiple of 8. -/
theorem length_pad_mod_eight (m : List Byte) : (pad m).length % 8 = 0 := by
  unfold pad
  split
  · assumption
  · rw [List.length_append, List.length_replicate]; omega

/-! ## One block -/

@[simp] theorem length_enc8 (ks : List RoundKey) (b : List Byte) : (enc8 ks b).length = 8 := by simp [enc8]

@[simp] theorem length_dec8 (ks : List RoundKey) (b : List Byte) : (dec8 ks b).length = 8 := by simp [dec8]

@[simp] theorem length_bxor (a b : List Byte) : (bxor a b).length = min a.length b.length := by simp [bxor]

theorem getElem_bxor (a b : List Byte) (j : Nat) (h : j < (bxor a b).length) :
    (bxor a b)[j] = (a[j]'(by simp at h; omega)) ^^^ (b[j]'(by simp at h; omega)) := by
  simp [bxor]

/-! ## Modes -/

theorem length_ecbEnc (ks : List RoundKey) (m : List Byte) : (ecbEnc ks m).length = (pad m).length := by
  rw [ecbEnc, length_flatten_of_blocks _ (by simp), List.length_map]
  exact length_blocks _ (length_pad_mod_eight m)

theorem length_ecbDecData (ks : List RoundKey) (c : List Byte) (h : c.length % 8 = 0) :
    (ecbDecData ks c).length = c.length := by
  rw [ecbDecData, length_flatten_of_blocks _ (by simp), List.length_map]
  exact length_blocks c h

theorem length_cbcEncBlocks (ks : List RoundKey) (prev : List Byte) (bs : List (List Byte)) :
    (cbcEncBlocks ks prev bs).length = 8 * bs.length := by
  induction bs generalizing prev with
  | nil => rfl
  | cons b bs ih => simp [cbcEncBlocks, ih]; omega

theorem length_cbcEnc (ks : List RoundKey) (iv m : List Byte) : (cbcEnc ks iv m).length = (pad m).length := by
  rw [cbcEnc, length_cbcEncBlocks]
  exact length_blocks _ (length_pad_mod_eight m)

theorem length_cbcDecBlocks (ks : List RoundKey) (bs : List (List Byte)) (prev : List Byte) (hp : prev.length = 8)
    (hb : ∀ b ∈ bs, b.length = 8) : (cbcDecBlocks ks prev bs).length = 8 * bs.length := by
  induction bs generalizing prev with
  | nil => rfl
  | cons b bs ih =>
    have := ih b (hb b (by simp)) fun c hc => hb c (by simp [hc])
    simp [cbcDecBlocks, hp, this]
    omega

theorem length_cbcDecData (ks : List RoundKey) (iv c : List Byte) (hiv : iv.length = 8) (h : c.length % 8 = 0) :
    (cbcDecData ks iv c).length = c.length := by
  rw [cbcDecData, length_cbcDecBlocks ks _ _ hiv (length_of_mem_blocks c)]
  exact length_blocks c h

@[simp] theorem length_ivBytes (s : State) : (ivBytes s).length = 8 := by simp [ivBytes]

@[simp] theorem length_inputMessage (s : State) : (inputMessage s).length = s.msgLen.toNat := by
  simp [inputMessage]

end Sys2Proof.Machine
end

