-- ==== Sys2Proof/Laws/PerInstr.lean ====
section
/-! SUPPORT. The statements made one command at a time. -/

namespace Sys2Proof.Laws.EncodingRoundTrip

/-- The command is well-formed, its byte and the word that `cmd` writes decode to it, the byte falls in no class of R127,
and a table word with that byte is read as it (30_encoding.md R120, R125, R126, R130). -/
def Statement (i : Instr) : Prop :=
  i.wellFormed = true ∧ decode (encode i) = .legal i ∧ commandByte (encodeWord i) = encode i ∧
  illegalClass (encode i) = none ∧ decodeTableWord 8 (encode i).toNat = some i

theorem nop : Statement .nop := by unfold Statement; decide

theorem keysched : Statement .keysched := by unfold Statement; decide

theorem blkEnc : Statement .blkEnc := by unfold Statement; decide

theorem blkDec : Statement .blkDec := by unfold Statement; decide

theorem msgEncEcb : Statement .msgEncEcb := by unfold Statement; decide

theorem msgDecEcb : Statement .msgDecEcb := by unfold Statement; decide

theorem msgEncCbc : Statement .msgEncCbc := by unfold Statement; decide

theorem msgDecCbc : Statement .msgDecCbc := by unfold Statement; decide

end Sys2Proof.Laws.EncodingRoundTrip
end

