-- ==== Sys2Proof/Tests/Slice0.lean ====
section
/-! SUPPORT. The model's own tests: decoding, the checks on terms, the vectors of spec/95_test_vectors.md, and for each
obligation with hypotheses a witness that meets them. Expected values are the spec's. -/

namespace Sys2Proof.Tests

open Sys2Proof.Machine

/-! ## Small states -/

/-- A key loaded, all else as after reset. -/
def keyed (k : Word64) : State := { State.reset with key := k, keyv := true }

/-- A key and an IV loaded. -/
def keyedIv (k v : Word64) : State := { State.reset with key := k, keyv := true, iv := v, ivv := true }

/-- A command pending. -/
def busyWith (op : Byte) (s : State) : State := { s with pending := some op }

/-- A message in MSGBUF from byte 0 and its length in MSG_LEN. -/
def withMessage (m : List Byte) (s : State) : State :=
  memWrite 0 m { s with msgLen := BitVec.ofNat 64 m.length }

/-- The key of 95 section 1. -/
def workedKey : Word64 := 0x133457799BBCDFF1

/-- "descrypt" (95 section 3.1). -/
def descrypt : Word64 := 0x6465736372797074

/-- The outcome is a next state with the property. -/
def next? (o : Host.Outcome State Fault Refusal) (p : State → Bool) : Bool :=
  match o with
  | .next t => p t
  | .fault _ => false
  | .refused _ => false

/-! ## Decoding: each row's byte written out from 30_encoding.md R121 as RSV, CBC, DIR, OP -/

theorem test_decode_nop : decode (0b00#2 ++ 0b0#1 ++ 0b0#1 ++ 0b0000#4) = .legal .nop := by decide
theorem test_decode_keysched : decode (0b00#2 ++ 0b0#1 ++ 0b0#1 ++ 0b0001#4) = .legal .keysched := by decide
theorem test_decode_blkEnc : decode (0b00#2 ++ 0b0#1 ++ 0b0#1 ++ 0b0010#4) = .legal .blkEnc := by decide
theorem test_decode_blkDec : decode (0b00#2 ++ 0b0#1 ++ 0b1#1 ++ 0b0010#4) = .legal .blkDec := by decide
theorem test_decode_msgEncEcb : decode (0b00#2 ++ 0b0#1 ++ 0b0#1 ++ 0b0011#4) = .legal .msgEncEcb := by decide
theorem test_decode_msgDecEcb : decode (0b00#2 ++ 0b0#1 ++ 0b1#1 ++ 0b0011#4) = .legal .msgDecEcb := by decide
theorem test_decode_msgEncCbc : decode (0b00#2 ++ 0b1#1 ++ 0b0#1 ++ 0b0011#4) = .legal .msgEncCbc := by decide
theorem test_decode_msgDecCbc : decode (0b00#2 ++ 0b1#1 ++ 0b1#1 ++ 0b0011#4) = .legal .msgDecCbc := by decide

/-- 95 V2: one byte of each class of R127. -/
theorem test_decode_illegal : decode 0x40 = .illegal 0x40 ∧ decode 0x04 = .illegal 0x04 ∧ decode 0x10 = .illegal 0x10 ∧
    decode 0x22 = .illegal 0x22 ∧ decode 0xFF = .illegal 0xFF := by decide

/-- 95 V21: CMD[63:8] is ignored. -/
theorem test_decode_high_bits : decode (commandByte 0x0000000000000100) = .legal .nop ∧
    decodeTableWord 8 0x33 = some .msgDecCbc ∧ decodeTableWord 8 0x22 = none := by decide

/-- R132. -/
theorem test_print : printCommand 0x02 = "BLK_ENC" ∧ printCommand 0x22 = ".cmd 0x22" ∧ printCommand 0xFF = ".cmd 0xFF" := by
  decide

/-- R131: `loadmsg "l"` as 95 P3 line 9 expands it. -/
theorem test_loadmsg : loadAccesses [0x6C] = [.wrbuf 0 0x6C00000000000000, .wr .msgLen 1] := by decide

/-- R131: `wait` reads STATUS again after BUSY = 1 and ends at the first read with BUSY = 0; 95 P4 line 3. -/
theorem test_wait : nextAccess .wait [] = some (.rd .status) ∧ nextAccess .wait [.okayData 5] = some (.rd .status) ∧
    nextAccess .wait [.okayData 5, .okayData 6] = none ∧ nextAccess (.run .msgEncEcb) [] = some (.cmd .msgEncEcb) := by
  decide

/-- R131: `readmsg` as 95 P4 line 7 runs it: one word, and the message "l". -/
theorem test_readmsg : nextAccess .readmsg [] = some (.rd .msgLen) ∧ nextAccess .readmsg [.okayData 1] = some (.rdbuf 0) ∧
    nextAccess .readmsg [.okayData 1, .okayData 0x6C07070707070707] = none ∧
    readmsgResult [.okayData 1, .okayData 0x6C07070707070707] = [0x6C] := by decide

/-! ## The checks refuse ill-formed terms -/

theorem test_wf_rdbuf_outside : HostInstr.wellFormed (.rdbuf (2 ^ 29)) = false := by
  have := Config.msgbufBytes_le
  simp [HostInstr.wellFormed, bufferWordInRange]
  omega

theorem test_wf_wrbuf_outside : HostInstr.wellFormed (.wrbuf (2 ^ 29) 0) = false := by
  have := Config.msgbufBytes_le
  simp [HostInstr.wellFormed, bufferWordInRange]
  omega

theorem test_wf_loadmsg_too_long : Pseudo.wellFormed (.loadmsg (List.replicate (2 ^ 32 + 1) 0)) = false := by
  have := Config.msgbufBytes_le
  simp only [Pseudo.wellFormed, List.length_replicate, decide_eq_false_iff_not]
  omega

/-- 95 V28: a 4-byte read at 0x020 and an 8-byte write at 0x024. -/
theorem test_wf_bus : BusTxn.wellFormed ⟨.read, Config.coreBase + 0x020, 4, 0⟩ = false ∧
    BusTxn.wellFormed ⟨.write, Config.coreBase + 0x024, 8, 0⟩ = false := by
  have h1 : (BusTxn.mk .read (Config.coreBase + 0x020) 4 0).offset? = some 0x020 := offset?_coreBase_add (by omega)
  have h2 : (BusTxn.mk .write (Config.coreBase + 0x024) 8 0).offset? = some 0x024 := offset?_coreBase_add (by omega)
  constructor
  · simp only [BusTxn.wellFormed, h1]
    decide
  · simp only [BusTxn.wellFormed, h2]
    decide

theorem test_wf_bus_outside : BusTxn.wellFormed ⟨.read, Config.coreBase + 0x1000 + Config.msgbufBytes, 8, 0⟩ = false := by
  have : ¬ (Config.coreBase ≤ Config.coreBase + 0x1000 + Config.msgbufBytes ∧
      Config.coreBase + 0x1000 + Config.msgbufBytes - Config.coreBase < 0x1000 + Config.msgbufBytes) := by omega
  simp only [BusTxn.wellFormed, BusTxn.offset?, this, if_false]

/-- Every command is well-formed; an ill-formed command is a byte that decodes to none. -/
theorem test_wf_commands : ∀ i ∈ [Instr.nop, .keysched, .blkEnc, .blkDec, .msgEncEcb, .msgDecEcb, .msgEncCbc, .msgDecCbc],
    i.wellFormed = true := by decide

/-! ## The datapath (95 section 4) -/

theorem test_permutations : permIP 0x0123456789ABCDEF = 0xCC00CCFFF0AAF0AA ∧ permIPInv 0x0123456789ABCDEF = 0xFF330FAA00330FAA ∧
    permE 0x00000001 = 0x800000000002 ∧ permP 0x80000000 = 0x00800000 ∧ permPC1 0x133457799BBCDFF1 = 0xF0CCAAF556678F ∧
    permPC2 0x80000000000000 = 0x080000000000 := by decide +kernel

theorem test_sboxes : (List.range 8).map (fun j => substitute j 0b011011) = [0x5, 0x9, 0xB, 0xA, 0x9, 0xB, 0xF, 0xE] ∧
    (List.range 8).map (fun j => substitute j 0b100001) = [0xF, 0xD, 0x1, 0x3, 0xB, 0x4, 0x6, 0x2] := by decide +kernel

theorem test_pad : pad [0x41, 0x42, 0x43] = [0x41, 0x42, 0x43, 5, 5, 5, 5, 5] ∧ pad [] = [] ∧
    unpad [0x41, 0x42, 0x43, 0x44, 4, 4, 4, 4] = [0x41, 0x42, 0x43, 0x44] ∧
    unpad [0x41, 0x42, 0x43, 0x44, 0x44, 4, 4, 4] = [0x41, 0x42, 0x43, 0x44, 0x44, 4, 4, 4] ∧
    unpad [8, 8, 8, 8, 8, 8, 8, 8] = [] := by decide

/-! ## The commands (95 section 5) -/

/-- V1. -/
theorem test_nop : next? (exec .nop (busyWith 0x00 State.reset)) (fun t => statusWord t == 0x002) = true := by decide

/-- V3. -/
theorem test_keysched_no_key : next? (exec .keysched (busyWith 0x01 State.reset)) (fun t => statusWord t == 0x102 &&
    t.rk == State.reset.rk) = true := by decide +kernel

/-- V5, RK of 95 section 1.1. -/
theorem test_keysched : next? (exec .keysched (busyWith 0x01 (keyed workedKey))) (fun t => statusWord t == 0x006 &&
    t.rk[0] == 0x1B02EFFC7072 && t.rk[8] == 0xE0DBEBEDE781 && t.rk[15] == 0xCB3D8B0E17F5) = true := by decide +kernel

/-- V4. -/
theorem test_blkEnc_no_key : next? (exec .blkEnc (busyWith 0x02 State.reset)) (fun t => statusWord t == 0x102 &&
    t.dout == 0) = true := by decide +kernel

/-- V6. -/
theorem test_blkEnc : next? (exec .blkEnc (busyWith 0x02 { keyed workedKey with din := 0x0123456789ABCDEF })) (fun t =>
    statusWord t == 0x006 && t.dout == 0x85E813540F0AB405 && t.din == 0x0123456789ABCDEF) = true := by decide +kernel

/-- V7: RK in forward order after a decryption. -/
theorem test_blkDec : next? (exec .blkDec (busyWith 0x12 { keyed workedKey with din := 0x85E813540F0AB405 })) (fun t =>
    t.dout == 0x0123456789ABCDEF && t.rk[0] == 0x1B02EFFC7072 && t.rk[15] == 0xCB3D8B0E17F5) = true := by decide +kernel

/-- V8. -/
theorem test_msgEncEcb : next? (exec .msgEncEcb (withMessage [0x6C] (keyed descrypt))) (fun t => statusWord t == 0x006 &&
    t.msgLen == 8 && memRead t 0 8 == [0x7B, 0xEA, 0xA2, 0xA9, 0xF0, 0x27, 0x79, 0x02]) = true := by
  have := Config.eight_le_msgbufBytes
  rw [exec_eq, completeChecked_of_pass]
  · decide +kernel
  · simp [checksOf, checkPasses, withMessage, keyed]
    omega

/-- V9: the pad bytes stay in the buffer. -/
theorem test_msgDecEcb : next? (exec .msgDecEcb (withMessage [0x7B, 0xEA, 0xA2, 0xA9, 0xF0, 0x27, 0x79, 0x02] (keyed descrypt)))
    (fun t => t.msgLen == 1 && memRead t 0 8 == [0x6C, 7, 7, 7, 7, 7, 7, 7]) = true := by
  have := Config.eight_le_msgbufBytes
  rw [exec_eq, completeChecked_of_pass]
  · decide +kernel
  · simp [checksOf, checkPasses, withMessage, keyed]
    omega

/-- 95 section 3.1: "linuslag" under CBC with IV = "initvect"; V10's STATUS. -/
theorem test_msgEncCbc : next? (exec .msgEncCbc (withMessage [0x6C, 0x69, 0x6E, 0x75, 0x73, 0x6C, 0x61, 0x67]
    (keyedIv descrypt 0x696E697476656374))) (fun t => statusWord t == 0x00E && t.msgLen == 8 &&
    memRead t 0 8 == [0x16, 0x14, 0x8D, 0x0C, 0x9B, 0x5D, 0x40, 0x17]) = true := by
  have := Config.eight_le_msgbufBytes
  rw [exec_eq, completeChecked_of_pass]
  · decide +kernel
  · simp [checksOf, checkPasses, withMessage, keyedIv]
    omega

/-- V12. -/
theorem test_msgEncCbc_no_iv : next? (exec .msgEncCbc { keyed descrypt with msgLen := 8 }) (fun t => statusWord t == 0x206 &&
    t.msgLen == 8 && t.msgbuf == []) = true := by decide +kernel

/-- 95 section 3.3: 5995C041BE5EE41B under CBC0. -/
theorem test_msgDecCbc : next? (exec .msgDecCbc (withMessage [0x59, 0x95, 0xC0, 0x41, 0xBE, 0x5E, 0xE4, 0x1B]
    (keyedIv descrypt 0))) (fun t => t.msgLen == 6 &&
    memRead t 0 8 == [0x41, 0x42, 0x43, 0x44, 0x45, 0x46, 2, 2]) = true := by
  have := Config.eight_le_msgbufBytes
  rw [exec_eq, completeChecked_of_pass]
  · decide +kernel
  · simp [checksOf, checkPasses, withMessage, keyedIv]
    omega

/-- V20, and V18's order of checks. -/
theorem test_msgDecCbc_errors :
    next? (exec .msgDecCbc { keyedIv descrypt 0 with msgLen := 7 }) (fun t => t.err == 3) = true ∧
    next? (exec .msgDecCbc { State.reset with msgLen := 7 }) (fun t => t.err == 1) = true := by decide +kernel

/-! ## The step, the bus and the interrupt -/

/-- The host's probe at reset: the latched word runs as the first command. -/
theorem test_first_step : next? (step (State.reset.withFetchWord 8 0x01)) (fun t => statusWord t == 0x102) = true ∧
    next? (step (State.reset.withFetchWord 8 0x22)) (fun t => statusWord t == 0x402) = true := by decide +kernel

/-- V30: a write of ID does nothing. -/
theorem test_rd_id : hostStep (.wr .id 5) State.reset = .next (setAnswer .okay State.reset) ∧
    hostStep (.rd .id) State.reset = .next (setAnswer (.okayData 0x444553434F524507) State.reset) :=
  ⟨hostStep_wr _ _ _, hostStep_rd _ _ (.inl rfl)⟩

/-- V22: a KEY write while busy is dropped and sets OVR. -/
theorem test_busy_key_write : next? (hostStep (.wr .key 0) (busyWith 0x02 (keyed workedKey))) (fun t =>
    t.key == workedKey && t.ovr && t.pending == some 0x02) = true := by
  rw [hostStep_wr]
  decide

/-- V26, V27: STATUS is write-1-to-clear in bits 1 and 4 alone. -/
theorem test_ack : next? (hostStep (.wr .status 0x12) { keyed descrypt with done := true, ovr := true, err := 3 }) (fun t =>
    statusWord t == 0x304) = true ∧
    next? (hostStep (.wr .status 0x01) { keyed descrypt with done := true, ovr := true, err := 3 }) (fun t =>
    statusWord t == 0x316) = true := by
  rw [hostStep_wr, hostStep_wr]
  decide

/-- V31, V32. -/
theorem test_irq : irq { keyed descrypt with ctrlIe := true, done := true } = true ∧
    next? (hostStep (.wr .ctrl 1) { State.reset with done := true }) irq = true := by
  rw [hostStep_wr]
  decide

/-- V33. -/
theorem test_reset_while_busy : next? (resetStep (busyWith 0x02 (keyed workedKey))) (fun t => t.pending == none && t.key == 0 &&
    !t.done) = true := by decide

/-! ## Witnesses: the hypotheses of the obligations can be met

Each theorem gives concrete operands for every hypothesis of the obligation it is named after, at the boundaries of their
ranges where there are ranges. -/

/-- A host instruction as the agenda's head is the step of the same name. -/
theorem step_cons (h : HostInstr) (rest : List Turn) (s : State) :
    step (setAgenda (.host (hostTransaction h) :: rest) s) = hostStep h (setAgenda rest s) := rfl

theorem busy_inv (op : Byte) (k : Word64) : StateInv (busyWith op (keyed k)) where
  busyClear _ := ⟨rfl, rfl⟩
  errNamed := by show 0 ≤ 4; decide
  keyUnset h := by cases h
  ivUnset _ := rfl
  memoryWf := rfl
  memoryInside c h := by cases h

theorem witness_EveryStepKeepsTheInvariant : StateInv (busyWith 0x02 (keyed workedKey)) ∧
    ∃ t, step (busyWith 0x02 (keyed workedKey)) = .next t := ⟨busy_inv _ _, coreTurn_next (busyWith 0x02 (keyed workedKey))⟩

theorem witness_CoreStepRunsTheDecodedCommand :
    ((busyWith 0x33 State.reset).pending = some 0x33 ∧ decode 0x33 = .legal .msgDecCbc ∧ (busyWith 0x33 State.reset).agenda = []) ∧
    (setAgenda [.core, .reset] (busyWith 0x33 State.reset)).agenda = .core :: [.reset] ∧
    ((busyWith 0x40 State.reset).pending = some 0x40 ∧ decode 0x40 = .illegal 0x40) ∧
    (State.reset.pending = none ∧ State.reset.agenda = []) := by decide

theorem witness_LatchedWordRunsAsTheNextStep : decodeTableWord 8 0x00 = some .nop ∧ decodeTableWord 8 0x33 = some .msgDecCbc ∧
    decodeTableWord 64 0x102 = some .blkEnc := by decide

theorem witness_CommandBytesOfTheOpcodeMap :
    ∀ b ∈ [(0x04 : Byte), 0x34, 0xFF], b ∉ [(0x00 : Byte), 0x01, 0x02, 0x12, 0x03, 0x13, 0x23, 0x33] := by decide

theorem witness_OnlyTheLowByteOfACommandWordCounts :
    (0x02 : Word64).toNat % 256 = (0xFFFFFFFFFFFFFF02 : Word64).toNat % 256 ∧ State.reset.pending = none := by decide

theorem witness_IllegalBytesFallInFourClasses : State.reset.pending = none ∧
    (busyWith 0x22 State.reset).pending = some 0x22 ∧ decode 0x22 = .illegal 0x22 := by decide

theorem lastWord_in_range : 8 * (Config.msgbufBytes / 8 - 1) + 8 ≤ Config.msgbufBytes := by
  have := Config.eight_le_msgbufBytes
  omega

theorem witness_HostInstructionsAreSingleAccesses : HostInstr.wellFormed (.rdbuf 0) = true ∧
    HostInstr.wellFormed (.wrbuf (Config.msgbufBytes / 8 - 1) 0) = true ∧ HostInstr.wellFormed (.cmd .nop) = true ∧
    regOffset (.rk 15) = regOffset (.rk 15) := by
  have h1 := Config.eight_le_msgbufBytes
  have h2 := lastWord_in_range
  simp [HostInstr.wellFormed, bufferWordInRange, h1, h2, Instr.wellFormed]

/-- For KeyschedFillsTheBank, BlkEncEnciphersDin, BlkDecDeciphersDin and BlkDecUndoesBlkEnc. -/
theorem witness_key_loaded : (keyed workedKey).keyv = true ∧ (busyWith 0x01 (keyed workedKey)).keyv = true := by decide

/-- A key and an IV loaded and MSG_LEN as given. -/
def withLength (n : Nat) : State := { keyedIv descrypt 0 with msgLen := BitVec.ofNat 64 n }

theorem withLength_msgLen (n : Nat) (h : n ≤ 2 ^ 32 + 1) : (withLength n).msgLen.toNat = n := by
  simp [withLength]
  omega

/-- For the four MSG commands' result statements: MSG_LEN = 0 and MSG_LEN = MSGBUF_BYTES meet every hypothesis. -/
theorem witness_message_lengths : ∀ n ∈ [0, Config.msgbufBytes], (withLength n).keyv = true ∧ (withLength n).ivv = true ∧
    (withLength n).msgLen.toNat ≤ Config.msgbufBytes ∧ (withLength n).msgLen.toNat % 8 = 0 := by
  have h1 := Config.msgbufBytes_le
  have h2 := Config.msgbufBytes_mod_eight
  intro n hn
  have hn' : n = 0 ∨ n = Config.msgbufBytes := by simpa using hn
  rw [withLength_msgLen n (by omega)]
  exact ⟨rfl, rfl, by omega, by omega⟩

theorem witness_FirstFailingCheckGivesTheError :
    ((busyWith 0x04 State.reset).pending = some 0x04 ∧ decode 0x04 = .illegal 0x04) ∧
    (Instr.keysched ≠ .nop ∧ State.reset.keyv = false) ∧
    ((keyed descrypt).keyv = true ∧ (keyed descrypt).ivv = false) ∧
    (Config.msgbufBytes < (withLength (Config.msgbufBytes + 1)).msgLen.toNat ∧
      (withLength (Config.msgbufBytes + 1)).keyv = true ∧ (withLength (Config.msgbufBytes + 1)).ivv = true) ∧
    ((withLength 7).msgLen.toNat % 8 ≠ 0 ∧ (withLength 7).keyv = true ∧ (withLength 7).ivv = true) := by
  have h1 := Config.msgbufBytes_le
  rw [withLength_msgLen _ (by omega : Config.msgbufBytes + 1 ≤ 2 ^ 32 + 1)]
  refine ⟨by decide, by decide, by decide, ⟨by omega, rfl, rfl⟩, by decide⟩

theorem witness_FrameOfPlainAndBlockCommands : ∀ i ∈ [Instr.nop, .keysched, .blkEnc, .blkDec],
    (∃ t, exec i (keyed workedKey) = .next t ∧ t.err = 0) ∧ ∃ t, exec i State.reset = .next t := by
  intro i hi
  refine ⟨⟨_, exec_eq _ _, ?_⟩, ⟨_, exec_eq _ _⟩⟩
  rw [completeChecked_of_pass]
  · rfl
  · fin_cases hi <;> decide

/-- The first byte after the stored ones, after a success; and a failed command. -/
theorem witness_FrameOfMessageCommands : ∀ i ∈ [Instr.msgEncEcb, .msgDecEcb, .msgEncCbc, .msgDecCbc],
    (∃ t, exec i (withLength 8) = .next t ∧ t.err = 0 ∧ (pad (inputMessage (withLength 8))).length ≤ 8 ∧
      (withLength 8).msgLen.toNat ≤ 8) ∧ ∃ t, exec i State.reset = .next t ∧ t.err ≠ 0 := by
  have h8 := Config.eight_le_msgbufBytes
  have hlen : (withLength 8).msgLen.toNat = 8 := rfl
  have hpad : (pad (inputMessage (withLength 8))).length = 8 := by simp [pad, hlen]
  intro i hi
  refine ⟨⟨_, exec_eq _ _, ?_, by rw [hpad], by rw [hlen]⟩, ⟨_, exec_eq _ _, ?_⟩⟩
  · rw [completeChecked_of_pass]
    · rfl
    · have hk : (withLength 8).keyv = true ∧ (withLength 8).ivv = true := by decide
      fin_cases hi <;> simp [checksOf, checkPasses, hlen, h8, hk]
  · fin_cases hi <;> decide

theorem witness_BankChangesOnlyByASuccessfulDerivation :
    next? (step (busyWith 0x01 (keyed workedKey))) (fun t => t.rk != (keyed workedKey).rk) = true ∧
    next? (step (setAgenda [.reset] { State.reset with rk := Vector.replicate 16 1 }))
      (fun t => t.rk != Vector.replicate 16 1) = true := by decide +kernel

theorem witness_DoutChangesOnlyByASuccessfulBlockCommand :
    next? (step (busyWith 0x02 (keyed workedKey))) (fun t => t.dout != 0) = true ∧
    next? (step (setAgenda [.core] (busyWith 0x12 (keyed workedKey)))) (fun t => t.dout != 0) = true ∧
    next? (step (setAgenda [.reset] { State.reset with dout := 1 })) (fun t => t.dout != 1) = true := by decide +kernel

theorem witness_OnlyResetClearsKeyvAndIvv : next? (step (keyedIv descrypt 0)) (fun t => t.keyv && t.ivv) = true ∧
    (keyedIv descrypt 0).agenda.head? ≠ some .reset ∧ (keyedIv descrypt 0).keyv = true ∧ (keyedIv descrypt 0).ivv = true := by
  decide

theorem witness_InputRegistersChangeOnlyByIdleWrites :
    next? (step (setAgenda [.host (hostTransaction (.wr .key 1))] State.reset)) (fun t => t.key != 0) = true ∧
    next? (step (setAgenda [.host (hostTransaction (.wr .iv 1))] State.reset)) (fun t => t.iv != 0) = true ∧
    next? (step (setAgenda [.host (hostTransaction (.wr .din 1))] State.reset)) (fun t => t.din != 0) = true := by
  simp only [step_cons, hostStep_wr]
  decide

theorem witness_OverrunIsSticky :
    next? (step (setAgenda [.host (hostTransaction (.wr .status 0x10))] { State.reset with ovr := true })) (fun t => !t.ovr) = true ∧
    next? (step (setAgenda [.reset] { State.reset with ovr := true })) (fun t => !t.ovr) = true ∧
    next? (step (setAgenda [.host (hostTransaction (.wr .key 1))] (busyWith 0x00 State.reset))) (fun t => t.ovr) = true := by
  simp only [step_cons, hostStep_wr]
  decide

theorem witness_InterruptFollowsEnableAndDone :
    next? (coreStep (busyWith 0x00 State.reset)) (fun t => t.done) = true ∧
    (∀ h ∈ [HostInstr.wr .status 0x02, .wr .cmd 0, .wr .ctrl 0],
      next? (step (setAgenda [.host (hostTransaction h)] { State.reset with ctrlIe := true, done := true }))
        (fun t => !irq t) = true) ∧
    next? (step (setAgenda [.reset] { State.reset with ctrlIe := true, done := true })) (fun t => !irq t) = true ∧
    irq { State.reset with ctrlIe := true, done := true } = true := by
  refine ⟨by decide, ?_, by decide, by decide⟩
  intro h hh
  simp only [step_cons]
  fin_cases hh <;> (rw [hostStep_wr]; decide)

theorem wr_wellFormed (r : RegName) (w : Word64) : (hostTransaction (.wr r w)).wellFormed = true := by
  obtain ⟨h1, h2⟩ := regOffset_lt r
  rw [wellFormed_iff]
  exact ⟨regOffset r, offset?_coreBase_add (by omega), rfl, h2⟩

theorem witness_PendingCommandSeesFrozenInputs : (busyWith 0x02 (keyed workedKey)).pending ≠ none ∧
    ∃ t, accessStep (hostTransaction (.wr .key 0)) (busyWith 0x02 (keyed workedKey)) = .next t :=
  ⟨by decide, hostTurn_of_wellFormed (wr_wellFormed _ _) _⟩

theorem witness_CompletionTimeDoesNotChangeTheResult : (busyWith 0x02 (keyed workedKey)).pending ≠ none ∧
    onlyOkayHost [] ∧ onlyOkayHost [.host (hostTransaction (.wr .key 0)), .host (hostTransaction (.wr .din 0))] := by
  refine ⟨by decide, by simp [onlyOkayHost], ?_⟩
  intro turn h
  have h' : turn = .host (hostTransaction (.wr .key 0)) ∨ turn = .host (hostTransaction (.wr .din 0)) := by simpa using h
  rcases h' with rfl | rfl
  · exact ⟨_, rfl, wr_wellFormed _ _⟩
  · exact ⟨_, rfl, wr_wellFormed _ _⟩

theorem witness_CarefulHostMeetsNoHazard : (busyWith 0x02 (keyed workedKey)).pending ≠ none ∧
    avoidsBusyHazards (hostTransaction (.wr .ctrl 1)) = true ∧
    ∃ t, accessStep (hostTransaction (.wr .ctrl 1)) (busyWith 0x02 (keyed workedKey)) = .next t := by
  refine ⟨by decide, ?_, hostTurn_of_wellFormed (wr_wellFormed _ _) _⟩
  have : (hostTransaction (.wr .ctrl 1)).offset? = some 8 := offset?_coreBase_add (off := 8) (by omega)
  simp only [avoidsBusyHazards, this]
  rfl

/-- The last aligned offset, the last offset, a wrong width, and the first address after the window. -/
theorem witness_BusErrorsExactlyForWrongWidthOrAlignment :
    (0x1000 + Config.msgbufBytes - 8 < 0x1000 + Config.msgbufBytes ∧ (0x1000 + Config.msgbufBytes - 8) % 8 = 0) ∧
    (0x1000 + Config.msgbufBytes - 1 < 0x1000 + Config.msgbufBytes ∧ (0x1000 + Config.msgbufBytes - 1) % 8 ≠ 0) ∧
    (0 < 0x1000 + Config.msgbufBytes ∧ (4 ≠ 8 ∨ 0 % 8 ≠ 0)) ∧
    Config.coreBase + 0x1000 + Config.msgbufBytes ≤ Config.coreBase + 0x1000 + Config.msgbufBytes := by
  have := Config.msgbufBytes_mod_eight
  omega

theorem witness_ReadsHaveNoSideEffects : (hostTransaction (.rd .status)).kind = .read ∧ State.reset.pending = none ∧
    (∃ t, accessStep (hostTransaction (.rd .status)) State.reset = .next t) ∧
    ∃ t, accessStep (hostTransaction (.rd .dout)) (busyWith 0x00 State.reset) = .next t :=
  ⟨rfl, rfl, ⟨_, hostStep_rd .status _ (.inl rfl)⟩, ⟨_, hostStep_rd_busy .dout _ (by decide) rfl⟩⟩

/-- For ReadsReturnTheRegisters, IdleWritesLoadTheRegisters, and the idle clauses of CommandWriteIssuesOrIsDropped and
ParityBitsAreNeverRead; and the busy clauses of the same. -/
theorem witness_idle_and_busy : (keyed descrypt).pending = none ∧ (busyWith 0xFF State.reset).pending = some 0xFF := by decide

/-- For BusyReadsOfResultsAreUnspecified and BusyWritesAreDroppedWithOverrun: a busy state, the first and the last buffer
word, and the first and the last offset of both reserved ranges. -/
theorem witness_busy_accesses : (busyWith 0x02 State.reset).pending ≠ none ∧ 8 * 0 + 8 ≤ Config.msgbufBytes ∧
    8 * (Config.msgbufBytes / 8 - 1) + 8 ≤ Config.msgbufBytes ∧
    ∀ off ∈ [0x48, 0x78, 0x100, 0xFF8], ((0x48 ≤ off ∧ off < 0x80) ∨ (0x100 ≤ off ∧ off < 0x1000)) ∧ off % 8 = 0 :=
  ⟨by decide, Config.eight_le_msgbufBytes, lastWord_in_range, by decide⟩

theorem witness_ReservedOffsetsReadZeroAndIgnoreWrites :
    ∀ off ∈ [0x48, 0x78, 0x100, 0xFF8], ((0x48 ≤ off ∧ off < 0x80) ∨ (0x100 ≤ off ∧ off < 0x1000)) ∧ off % 8 = 0 := by decide

theorem witness_BufferWordsAreBigEndian : State.reset.pending = none ∧ 8 * 0 + 8 ≤ Config.msgbufBytes ∧
    8 * (Config.msgbufBytes / 8 - 1) + 8 ≤ Config.msgbufBytes :=
  ⟨rfl, Config.eight_le_msgbufBytes, lastWord_in_range⟩

/-- An idle state whose MSG_LEN is 0 or the whole buffer, messages of both lengths, an idle and a pending wait with a read
after the core's move. -/
theorem witness_PseudoInstructionsRunAsTheyExpand : State.reset.pending = none ∧ ([] : List Byte).length ≤ Config.msgbufBytes ∧
    (List.replicate Config.msgbufBytes (0x6C : Byte)).length ≤ Config.msgbufBytes ∧
    (∀ n ∈ [0, Config.msgbufBytes], (withLength n).pending = none ∧ (withLength n).msgLen.toNat ≤ Config.msgbufBytes) ∧
    ([Mover.host, .core, .host] = [.host, .core] ++ [.host] ∧ Mover.core ∈ [Mover.host, .core] ∧ Mover.host ∈ [Mover.host]) ∧
    (busyWith 0x02 State.reset).pending ≠ none := by
  refine ⟨rfl, by simp, by simp, ?_, by decide, by decide⟩
  intro n hn
  exact ⟨rfl, (witness_message_lengths n hn).2.2.1⟩

/-- The ends of the bit ranges of StatusFieldsStandAtTheirBits and of the position ranges of PermutationTablesMeetTheirFacts. -/
theorem witness_ranges : (5 ≤ 5 ∧ 5 ≤ 7 ∧ 5 ≤ 7 ∧ 7 ≤ 7) ∧ (12 ≤ 12 ∧ 12 ≤ 63) ∧ (1 ≤ 64 ∧ 64 ≤ 64) ∧ (1 ≤ 32 ∧ 32 ≤ 32) := by decide

theorem witness_BitConverterIsLossless : ([] : List Byte).length = 0 ∧ ([0x80, 0x01] : List Byte).length = 2 ∧ 1 < 2 ∧ 7 < 8 := by
  decide

theorem witness_ParityBitsAreNeverRead : ∀ i < 64, i % 8 ≠ 0 →
    (0x133457799BBCDFF1 : Word64).getLsbD i = (0x123456789ABCDEF0 : Word64).getLsbD i := by decide

/-- Round 0 and round 15, for RoundKeysComeFromCumulativeRotations and WeakKeysEncipherAsTheyDecipher. -/
theorem witness_rounds : 0 < 16 ∧ 15 < 16 ∧ (0xE0E0E0E0F1F1F1F1 : Word64) ∈
    [(0x0101010101010101 : Word64), 0xFEFEFEFEFEFEFEFE, 0x1F1F1F1F0E0E0E0E, 0xE0E0E0E0F1F1F1F1] := by decide

theorem witness_PaddedLengthAndLengthChecks : ([] : List Byte).length % 8 = 0 ∧ ([0x6C] : List Byte).length % 8 ≠ 0 ∧
    (List.replicate Config.msgbufBytes (0x6C : Byte)).length ≤ Config.msgbufBytes ∧
    (withLength (Config.msgbufBytes + 1)).keyv = true ∧ (withLength (Config.msgbufBytes + 1)).ivv = true ∧
    Config.msgbufBytes < (withLength (Config.msgbufBytes + 1)).msgLen.toNat ∧ (withLength 7).msgLen.toNat % 8 ≠ 0 := by
  obtain ⟨-, -, -, ⟨h, hk, hv⟩, h7, -⟩ := witness_FirstFailingCheckGivesTheError
  exact ⟨by decide, by decide, by simp, hk, hv, h, h7⟩

/-- p = 1 and p = 8; and data that ends in no padding. For UnpadStripsExactlyValidPadding and
UnpadUndoesPadExceptForPaddedLookalikes. -/
theorem witness_padding : (∀ p ∈ [1, 8], 1 ≤ p ∧ p ≤ 8 ∧ ((List.replicate (8 - p) (0x41 : Byte)).length + p) % 8 = 0) ∧
    (∀ (n : List Byte) (p : Nat), 1 ≤ p → p ≤ 8 → ([] : List Byte) ≠ n ++ List.replicate p (BitVec.ofNat 8 p)) ∧
    ([0x6C] : List Byte).length % 8 ≠ 0 := by
  refine ⟨by decide, ?_, by decide⟩
  intro n p h1 _ h
  have := congrArg List.length h
  simp at this
  omega

/-- For ModesDecryptWhatTheyEncrypt, WrongIvCorruptsOnlyTheFirstBlock and CbcMessagesSplitAtBlockBoundaries. -/
theorem witness_blocks : (List.replicate 8 (0 : Byte)).length = 8 ∧ (List.replicate 8 (1 : Byte)).length = 8 ∧
    (List.replicate 16 (0x6C : Byte)).length % 8 = 0 ∧ List.replicate 16 (0x6C : Byte) ≠ [] := by decide

theorem witness_MessageRoundTripOnTheMachine : ∀ n ∈ [0, Config.msgbufBytes], (withLength n).keyv = true ∧
    (withLength n).ivv = true ∧ (withLength n).msgLen.toNat ≤ Config.msgbufBytes := by
  intro n hn
  obtain ⟨h1, h2, h3, -⟩ := witness_message_lengths n hn
  exact ⟨h1, h2, h3⟩

end Sys2Proof.Tests
end

section
/-! PROOFS. The family 10_state.md: the fields of STATUS at their bits (R33) and what reset leaves (R54). -/

namespace Sys2Proof.Machine

/-! ## STATUS, bit by bit (R33, R86) -/

/-- A one-bit field shifted to position `i` is that bit at `i` and 0 elsewhere. -/
theorem getLsbD_bitWord_shiftLeft (b : Bool) {i : Nat} (hi : i < 64) (k : Nat) :
    (bitWord b <<< i).getLsbD k = (decide (k = i) && b) := by
  by_cases hk : k = i
  · subst hk
    simp [bitWord, hi]
  · by_cases hlt : k < i
    · simp [hk, hlt]
    · have hpos : k - i ≠ 0 := by omega
      simp [bitWord, BitVec.getLsbD_ofBool, hk, hpos]

/-- A one-bit field that is not shifted is that bit at position 0. -/
theorem getLsbD_bitWord (b : Bool) (k : Nat) : (bitWord b).getLsbD k = (decide (k = 0) && b) := by
  simpa using getLsbD_bitWord_shiftLeft b (i := 0) (by decide) k

/-- ERR, shifted to bit 8, holds bit `k - 8` of the error number at `k`; the number fits in four bits. -/
theorem getLsbD_errField (e : Fin 16) (k : Nat) :
    (BitVec.ofNat 64 e.val <<< 8).getLsbD k = (decide (8 ≤ k ∧ k < 12) && e.val.testBit (k - 8)) := by
  rw [BitVec.getLsbD_shiftLeft, BitVec.getLsbD_ofNat]
  by_cases hk : k < 12
  · have h64 : k < 64 ∧ k - 8 < 64 := by omega
    rcases Nat.lt_or_ge k 8 with hlo | hlo
    · simp [hlo]
    · simp [hlo, hlo.not_gt, hk, h64]
  · have hbit : e.val.testBit (k - 8) = false := by
      apply Nat.testBit_lt_two_pow
      calc e.val < 2 ^ 4 := e.isLt
        _ ≤ 2 ^ (k - 8) := Nat.pow_le_pow_right (by decide) (by omega)
    simp [hbit]

/-- Every bit of STATUS: the bits of ERR from 8 on, one bit for each flag, and nothing else. -/
theorem getLsbD_statusWord (s : State) (k : Nat) :
    (statusWord s).getLsbD k =
      ((decide (8 ≤ k ∧ k < 12) && s.err.val.testBit (k - 8)) || (decide (k = 4) && s.ovr) ||
        (decide (k = 3) && s.ivv) || (decide (k = 2) && s.keyv) || (decide (k = 1) && s.done) ||
        (decide (k = 0) && busy s)) := by
  simp (disch := decide) only [statusWord, BitVec.getLsbD_or, getLsbD_errField, getLsbD_bitWord,
    getLsbD_bitWord_shiftLeft]

/-- The bits of STATUS that belong to no field read 0. -/
theorem getLsbD_statusWord_unused (s : State) {k : Nat} (h : (5 ≤ k ∧ k ≤ 7) ∨ 12 ≤ k) :
    (statusWord s).getLsbD k = false := by
  have herr : ¬(8 ≤ k ∧ k < 12) := by omega
  have hflag : k ≠ 4 ∧ k ≠ 3 ∧ k ≠ 2 ∧ k ≠ 1 ∧ k ≠ 0 := by omega
  simp [getLsbD_statusWord, herr, hflag]

/-- STATUS[11:8] is the error number. -/
theorem statusWord_errField (s : State) : ((statusWord s).extractLsb' 8 4).toNat = s.err.val := by
  have hbits : (statusWord s).extractLsb' 8 4 = BitVec.ofNat 4 s.err.val := by
    apply BitVec.eq_of_getLsbD_eq
    intro i hi
    have hin : 8 + i < 12 := by omega
    have hflag : 8 + i ≠ 4 ∧ 8 + i ≠ 3 ∧ 8 + i ≠ 2 ∧ 8 + i ≠ 1 := by omega
    simp [getLsbD_statusWord, hi, hin, hflag]
  rw [hbits, BitVec.toNat_ofNat]
  exact Nat.mod_eq_of_lt s.err.isLt

/-- STATUS reads 0 at reset. -/
theorem statusWord_reset : statusWord State.reset = 0 := by decide

/-- What an accepted STATUS write leaves, its cleared bits as a choice on the written word. -/
theorem writeStatus_eq (w : Word64) (s : State) :
    writeStatus w s = { s with
      done := if w.getLsbD 1 then false else s.done
      ovr := if w.getLsbD 4 then false else s.ovr } := by
  unfold writeStatus
  cases w.getLsbD 1 <;> cases w.getLsbD 4 <;> simp

/-! ## The obligations -/

/-- Settles O39: each bit is read off `getLsbD_statusWord`, and a STATUS write is `writeStatus` in every state. -/
theorem statusFieldsStandAtTheirBits : Obligations.StatusFieldsStandAtTheirBits := by
  refine ⟨fun s => ?_, statusWord_reset, fun s w => ?_⟩
  · refine ⟨?busy, ?done, ?keyv, ?ivv, ?ovr, ?low, statusWord_errField s, ?high⟩
    case busy => exact (getLsbD_statusWord s 0).trans (by simp)
    case done => exact (getLsbD_statusWord s 1).trans (by simp)
    case keyv => exact (getLsbD_statusWord s 2).trans (by simp)
    case ivv => exact (getLsbD_statusWord s 3).trans (by simp)
    case ovr => exact (getLsbD_statusWord s 4).trans (by simp)
    case low => exact fun k h5 h7 => getLsbD_statusWord_unused s (.inl ⟨h5, h7⟩)
    case high => exact fun k h12 => getLsbD_statusWord_unused s (.inr h12)
  · calc hostStep (.wr .status w) s
        = .next (setAnswer .okay (writeStatus w s)) := hostStep_wr .status w s
      _ = _ := by rw [writeStatus_eq]; rfl

/-- Settles O1: every stored field is a literal of `State.reset`; STATUS, the bank and the empty buffer are the
derived ones. -/
theorem resetLeavesEveryRegisterClear : Obligations.ResetLeavesEveryRegisterClear := by
  have hbank : ∀ i : Fin 16, State.reset.rk[i] = 0 := by simp [State.reset]
  have hbuffer : ∀ a, Memory.byteAt State.reset.msgbuf a = none := fun _ => rfl
  have hctrl : readReg .ctrl State.reset = 0 := by decide
  exact ⟨rfl, rfl, hctrl, rfl, rfl, rfl, rfl, rfl, rfl, statusWord_reset, rfl, rfl, rfl, rfl, rfl, hbank, rfl,
    hbuffer, rfl⟩

end Sys2Proof.Machine
end

section
/-! PROOFS. The family 20_memory.md: the register page as the bus reads and writes it (R84, R86, R87, R95). -/

namespace Sys2Proof.Machine

/-! ## The read values of CTRL and STATUS (R86) -/

theorem bitWord_eq_ofNat (b : Bool) : bitWord b = BitVec.ofNat 64 b.toNat := by cases b <;> rfl

/-- A read of CTRL is 1 or 0 as IE is set or clear. -/
theorem ctrlWord_eq_ite (s : State) : ctrlWord s = if s.ctrlIe then 1 else 0 := by
  unfold ctrlWord
  cases s.ctrlIe <;> rfl

/-- Joining a field at bit `i` to fields that stay below bit `i` adds it to them. -/
theorem shiftLeft_or_eq_add {i n : Nat} (h : n < 2 ^ i) (x : Nat) :
    BitVec.ofNat 64 x <<< i ||| BitVec.ofNat 64 n = BitVec.ofNat 64 (2 ^ i * x + n) := by
  have hshift : BitVec.ofNat 64 x <<< i = BitVec.ofNat 64 (2 ^ i * x) := by
    apply BitVec.eq_of_toNat_eq
    simp [Nat.shiftLeft_eq, Nat.mul_comm]
  rw [hshift, ← BitVec.ofNat_or, Nat.two_pow_add_eq_or_of_lt h]

/-- STATUS as the weighted sum of its fields: from BUSY upward each field stands above the sum of those below it. -/
theorem statusWord_eq_sum (s : State) :
    statusWord s = BitVec.ofNat 64 (256 * s.err.val + 16 * s.ovr.toNat + 8 * s.ivv.toNat + 4 * s.keyv.toNat +
      2 * s.done.toNat + s.pending.isSome.toNat) := by
  have hb := Bool.toNat_lt s.pending.isSome
  have hd := Bool.toNat_lt s.done
  have hk := Bool.toNat_lt s.keyv
  have hi := Bool.toNat_lt s.ivv
  have ho := Bool.toNat_lt s.ovr
  simp only [statusWord, busy, bitWord_eq_ofNat, BitVec.or_assoc]
  rw [shiftLeft_or_eq_add (by omega), shiftLeft_or_eq_add (by omega), shiftLeft_or_eq_add (by omega),
    shiftLeft_or_eq_add (by omega), shiftLeft_or_eq_add (by omega)]
  congr 1
  omega

/-! ## Register accesses by what they read or write -/

/-- A register whose read is specified answers with its value, whatever way that value is written. -/
theorem hostStep_rd_eq {r : RegName} {s : State} {v : Word64} (h : s.pending = none ∨ unspecifiedWhileBusy r = false)
    (hv : readReg r s = v) : hostStep (.rd r) s = .next { s with answer := some (.okayData v) } := by
  rw [hostStep_rd r s h, hv]
  rfl

/-- A write of CTRL, idle or busy. -/
theorem hostStep_wr_ctrl (w : Word64) (s : State) :
    hostStep (.wr .ctrl w) s = .next { s with ctrlIe := w.getLsbD 0, answer := some .okay } :=
  hostStep_wr .ctrl w s

/-- A write of STATUS, idle or busy. -/
theorem hostStep_wr_status (w : Word64) (s : State) :
    hostStep (.wr .status w) s =
      .next { s with
        done := if w.getLsbD 1 then false else s.done
        ovr := if w.getLsbD 4 then false else s.ovr
        answer := some .okay } := by
  rw [hostStep_wr, writeReg, writeStatus_eq]
  rfl

/-- A write of a register the host cannot write, idle or busy (R87, R95). -/
theorem hostStep_wr_readOnly {r : RegName} (h : r = .id ∨ r = .dout ∨ ∃ i, r = .rk i) (w : Word64) (s : State) :
    hostStep (.wr r w) s = .next { s with answer := some .okay } := by
  have hw : writeReg r w s = s := by obtain rfl | rfl | ⟨i, rfl⟩ := h <;> rfl
  rw [hostStep_wr, hw]
  rfl

/-- While idle, a register write that is guarded by BUSY takes its effect. -/
theorem hostStep_wr_of_idle {r : RegName} {w : Word64} {s : State} (write : State → State)
    (hw : writeReg r w s = acceptWhenIdle write s) (h : s.pending = none) :
    hostStep (.wr r w) s = .next (setAnswer .okay (write s)) := by
  rw [hostStep_wr, hw, acceptWhenIdle_of_idle h]

/-- The registers whose writes are dropped are those guarded by BUSY: a busy write of one only sets OVR. -/
theorem writeReg_of_dropped {r : RegName} {s : State} (hr : droppedWhileBusy r = true) (h : s.pending ≠ none)
    (w : Word64) : writeReg r w s = setOverrun s := by
  cases r with
  | cmd | key | iv | din | msgLen => exact acceptWhenIdle_of_busy h
  | id | ctrl | status | dout | rk => cases hr

/-- The opcode a CMD write latches is the written number modulo 256 (R120). -/
theorem commandByte_eq_ofNat (w : Word64) : commandByte w = BitVec.ofNat 8 w.toNat := by
  apply BitVec.eq_of_toNat_eq
  simp [commandByte]

/-! ## Reserved offsets (R84) -/

/-- No register stands at a reserved offset. -/
theorem regAt_reserved {off : Nat} (h : (0x48 ≤ off ∧ off < 0x80) ∨ (0x100 ≤ off ∧ off < 0x1000))
    (ha : off % 8 = 0) : regAt off = none := by
  refine Option.eq_none_iff_forall_ne_some.2 fun r hr => ?_
  have hoff := regAt_inv hr ha
  cases r <;> simp only [regOffset] at hoff <;> omega

theorem accessStep_read_reserved {off : Nat} (h : (0x48 ≤ off ∧ off < 0x80) ∨ (0x100 ≤ off ∧ off < 0x1000))
    (ha : off % 8 = 0) (w : Word64) (s : State) :
    accessStep ⟨.read, Config.coreBase + off, 8, w⟩ s = .next { s with answer := some (.okayData 0) } := by
  have hpage : off < 0x1000 := by omega
  have hread : accessAt .read off w s = (.okayData 0, s) := by simp [accessAt, hpage, readPage, regAt_reserved h ha]
  rw [accessStep_offset s (by omega) ha, hread]
  rfl

theorem accessStep_write_reserved {off : Nat} (h : (0x48 ≤ off ∧ off < 0x80) ∨ (0x100 ≤ off ∧ off < 0x1000))
    (ha : off % 8 = 0) (w : Word64) (s : State) :
    accessStep ⟨.write, Config.coreBase + off, 8, w⟩ s = .next { s with answer := some .okay } := by
  have hpage : off < 0x1000 := by omega
  have hwrite : accessAt .write off w s = (.okay, s) := by simp [accessAt, hpage, writePage, regAt_reserved h ha]
  rw [accessStep_offset s (by omega) ha, hwrite]
  rfl

/-! ## The obligations -/

/-- Settles O33: a specified read answers `readReg`, a busy read of a result the next draw; only CTRL and STATUS are
written otherwise than as the field itself. -/
theorem readsReturnTheRegisters : Obligations.ReadsReturnTheRegisters := by
  intro s
  refine ⟨?id, ?ctrl, ?status, ?cmd, ?key, ?iv, ?din, fun hidle => ⟨?dout, ?msgLen, fun i => ?rk⟩,
    fun hbusy r hr => ?draw⟩
  case id | cmd | key | iv | din => exact hostStep_rd_eq (.inr rfl) rfl
  case ctrl => exact hostStep_rd_eq (.inr rfl) (ctrlWord_eq_ite s)
  case status => exact hostStep_rd_eq (.inr rfl) (statusWord_eq_sum s)
  case dout | msgLen | rk => exact hostStep_rd_eq (.inl hidle) rfl
  case draw =>
    have hresult : unspecifiedWhileBusy r = true := by obtain rfl | rfl | ⟨i, rfl⟩ := hr <;> rfl
    exact ⟨_, _, hostStep_rd_busy r s hbusy hresult⟩

/-- Settles O35: CTRL and STATUS writes act in every state, the guarded ones act because the core is idle, and the other
registers ignore writes. -/
theorem idleWritesLoadTheRegisters : Obligations.IdleWritesLoadTheRegisters := by
  intro s w hidle
  refine ⟨hostStep_wr_ctrl w s, hostStep_wr_status w s, ?cmd, ?key, ?iv, ?din, ?msgLen, ?id, ?dout, fun i => ?rk⟩
  case cmd =>
    rw [← commandByte_eq_ofNat]
    exact hostStep_wr_of_idle (issue w) rfl hidle
  case key => exact hostStep_wr_of_idle (loadKey w) rfl hidle
  case iv => exact hostStep_wr_of_idle (loadIv w) rfl hidle
  case din => exact hostStep_wr_of_idle (loadDin w) rfl hidle
  case msgLen => exact hostStep_wr_of_idle (loadMsgLen w) rfl hidle
  case id => exact hostStep_wr_readOnly (.inl rfl) w s
  case dout => exact hostStep_wr_readOnly (.inr (.inl rfl)) w s
  case rk => exact hostStep_wr_readOnly (.inr (.inr ⟨i, rfl⟩)) w s

/-- Settles O36: registers and buffer words guarded by BUSY leave only OVR; every other write acts as it does in any
state. -/
theorem busyWritesAreDroppedWithOverrun : Obligations.BusyWritesAreDroppedWithOverrun := by
  intro s w hbusy
  refine ⟨fun r hr => ?dropped, fun a ha => ?buffer, hostStep_wr_ctrl w s, hostStep_wr_status w s,
    fun r hr => hostStep_wr_readOnly hr w s, fun off hoff ha => accessStep_write_reserved hoff ha w s⟩
  case dropped =>
    have hguarded : ∀ r ∈ [RegName.key, .iv, .din, .msgLen, .cmd], droppedWhileBusy r = true := by decide
    rw [hostStep_wr, writeReg_of_dropped (hguarded r hr) hbusy]
    rfl
  case buffer =>
    rw [hostStep_wrbuf a w s ha, acceptWhenIdle_of_busy hbusy]
    rfl

/-- Settles O37: no register stands at a reserved offset, so the page answers 0 or ignores the write. -/
theorem reservedOffsetsReadZeroAndIgnoreWrites : Obligations.ReservedOffsetsReadZeroAndIgnoreWrites :=
  fun s w _ hoff ha => ⟨accessStep_read_reserved hoff ha w s, accessStep_write_reserved hoff ha w s⟩

end Sys2Proof.Machine
end

section
/-! PROOFS. The family 30_encoding.md: the opcode map (R125) and the four classes of illegal bytes (R127). -/

namespace Sys2Proof.Machine

/-! ## The opcode map (R125, R126) -/

/-- The column opc of R125. -/
def commandBytes : List Byte := [0x00, 0x01, 0x02, 0x12, 0x03, 0x13, 0x23, 0x33]

theorem encode_mem_commandBytes (i : Instr) : encode i ∈ commandBytes := by cases i <;> decide

theorem encodingRoundTrip (i : Instr) : Laws.EncodingRoundTrip.Statement i := by
  cases i with
  | nop => exact Laws.EncodingRoundTrip.nop
  | keysched => exact Laws.EncodingRoundTrip.keysched
  | blkEnc => exact Laws.EncodingRoundTrip.blkEnc
  | blkDec => exact Laws.EncodingRoundTrip.blkDec
  | msgEncEcb => exact Laws.EncodingRoundTrip.msgEncEcb
  | msgDecEcb => exact Laws.EncodingRoundTrip.msgDecEcb
  | msgEncCbc => exact Laws.EncodingRoundTrip.msgEncCbc
  | msgDecCbc => exact Laws.EncodingRoundTrip.msgDecCbc

theorem decode_encode (i : Instr) : decode (encode i) = .legal i := by
  obtain ⟨-, hdecode, -⟩ := encodingRoundTrip i
  exact hdecode

/-- A byte either is the opcode of the command it decodes to, or is illegal by its own name. -/
theorem decode_cases (b : Byte) : (∃ i, b = encode i ∧ decode b = .legal i) ∨ decode b = .illegal b := by
  unfold decode
  split
  case h_9 => exact .inr rfl
  all_goals exact .inl ⟨_, BitVec.eq_of_toNat_eq ‹_›, rfl⟩

theorem decode_eq_illegal_iff (b : Byte) : decode b = .illegal b ↔ b ∉ commandBytes := by
  constructor
  · intro hillegal hmem
    have hlegal : ∀ c ∈ commandBytes, decode c ≠ .illegal c := by decide
    exact hlegal b hmem hillegal
  · intro hmem
    obtain ⟨i, rfl, -⟩ | hillegal := decode_cases b
    · exact absurd (encode_mem_commandBytes i) hmem
    · exact hillegal

/-! ## The fields of a byte as parts of its number (R121) -/

theorem opField_eq_mod (b : Byte) : opField b = b.toNat % 16 := by simp [opField]

theorem dirField_eq_true_iff (b : Byte) : dirField b = true ↔ b.toNat / 16 % 2 = 1 := by
  simp [dirField, BitVec.getLsbD, Nat.testBit_eq_decide_div_mod_eq]

theorem cbcField_eq_true_iff (b : Byte) : cbcField b = true ↔ b.toNat / 32 % 2 = 1 := by
  simp [cbcField, BitVec.getLsbD, Nat.testBit_eq_decide_div_mod_eq]

theorem rsvField_eq_div (b : Byte) : rsvField b = b.toNat / 64 := by
  have hb : b.toNat / 64 < 4 := by omega
  simp [rsvField, Nat.shiftRight_eq_div_pow, Nat.mod_eq_of_lt hb]

/-! ## The classes of illegal bytes (R127), first by their fields, then by their members -/

theorem illegalClass_eq_reservedBits_iff (b : Byte) : illegalClass b = some .reservedBits ↔ rsvField b ≠ 0 := by
  unfold illegalClass
  split_ifs <;> simp_all

theorem illegalClass_eq_unassignedOp_iff (b : Byte) :
    illegalClass b = some .unassignedOp ↔ rsvField b = 0 ∧ 4 ≤ opField b := by
  unfold illegalClass
  split_ifs <;> simp_all

theorem illegalClass_eq_directionOrModeOnPlainOp_iff (b : Byte) :
    illegalClass b = some .directionOrModeOnPlainOp ↔
      rsvField b = 0 ∧ opField b ≤ 1 ∧ (dirField b = true ∨ cbcField b = true) := by
  unfold illegalClass
  split_ifs <;> simp_all
  omega

theorem illegalClass_eq_cbcOnBlock_iff (b : Byte) :
    illegalClass b = some .cbcOnBlock ↔ rsvField b = 0 ∧ opField b = 2 ∧ cbcField b = true := by
  unfold illegalClass
  split_ifs <;> simp_all <;> omega

theorem illegalClass_eq_none_iff (b : Byte) :
    illegalClass b = none ↔ rsvField b = 0 ∧ opField b < 4 ∧
      ¬(opField b ≤ 1 ∧ (dirField b = true ∨ cbcField b = true)) ∧ ¬(opField b = 2 ∧ cbcField b = true) := by
  unfold illegalClass
  split_ifs <;> simp_all

theorem illegalClass_eq_none_iff_mem (b : Byte) : illegalClass b = none ↔ b ∈ commandBytes := by
  simp only [illegalClass_eq_none_iff, rsvField_eq_div, opField_eq_mod, dirField_eq_true_iff, cbcField_eq_true_iff,
    commandBytes, List.mem_cons, List.not_mem_nil, ← BitVec.toNat_inj, BitVec.reduceToNat, or_false]
  omega

theorem illegalClass_eq_directionOrModeOnPlainOp_iff_mem (b : Byte) :
    illegalClass b = some .directionOrModeOnPlainOp ↔ b ∈ [0x10, 0x20, 0x30, 0x11, 0x21, 0x31] := by
  simp only [illegalClass_eq_directionOrModeOnPlainOp_iff, rsvField_eq_div, opField_eq_mod, dirField_eq_true_iff,
    cbcField_eq_true_iff, List.mem_cons, List.not_mem_nil, ← BitVec.toNat_inj, BitVec.reduceToNat, or_false]
  omega

theorem illegalClass_eq_cbcOnBlock_iff_mem (b : Byte) : illegalClass b = some .cbcOnBlock ↔ b ∈ [0x22, 0x32] := by
  simp only [illegalClass_eq_cbcOnBlock_iff, rsvField_eq_div, opField_eq_mod, cbcField_eq_true_iff, List.mem_cons,
    List.not_mem_nil, ← BitVec.toNat_inj, BitVec.reduceToNat, or_false]
  omega

theorem illegalClass_ne_none_iff_decode (b : Byte) : illegalClass b ≠ none ↔ decode b = .illegal b := by
  rw [Ne, illegalClass_eq_none_iff_mem, decode_eq_illegal_iff]

/-! ## An illegal byte on the machine (R127, R161) -/

/-- A CMD write of an idle core is accepted whatever its byte. -/
theorem hostStep_wr_cmd_of_idle {s : State} (h : s.pending = none) (w : Word64) :
    hostStep (.wr .cmd w) s = .next (setAnswer .okay (issue w s)) :=
  hostStep_wr_of_idle (issue w) rfl h

theorem coreStep_of_illegal {s : State} {op b : Byte} (hp : s.pending = some op) (hd : decode op = .illegal b) :
    coreStep s = .next { s with err := 4, done := true, pending := none } := by
  rw [coreStep_eq, coreTurn, hp]
  dsimp only
  rw [hd]
  rfl

/-! ## The obligations -/

/-- Settles O9: the classes are read off the fields of the byte, and what an illegal byte does off the two steps. -/
theorem illegalBytesFallInFourClasses : Obligations.IllegalBytesFallInFourClasses := by
  refine ⟨illegalClass_ne_none_iff_decode, illegalClass_eq_reservedBits_iff, illegalClass_eq_unassignedOp_iff,
    ?reserved, ?unassigned, illegalClass_eq_directionOrModeOnPlainOp_iff_mem, illegalClass_eq_cbcOnBlock_iff_mem,
    fun s w hidle => ⟨_, hostStep_wr_cmd_of_idle hidle w, rfl⟩, fun s b => coreStep_of_illegal⟩
  case reserved | unassigned => decide +kernel

/-- Settles O7: each row is the decoder after the encoder, and a byte outside the map is illegal by name. -/
theorem commandBytesOfTheOpcodeMap : Obligations.CommandBytesOfTheOpcodeMap :=
  ⟨decode_encode .nop, decode_encode .keysched, decode_encode .blkEnc, decode_encode .blkDec, decode_encode .msgEncEcb,
    decode_encode .msgDecEcb, decode_encode .msgEncCbc, decode_encode .msgDecCbc,
    fun b => (decode_eq_illegal_iff b).2, fun _ => BitVec.setWidth_eq_extractLsb' (by decide)⟩

end Sys2Proof.Machine
end

section
/-! PROOFS. The family 40_command_cycle.md: issue (R151, R152), and NOP from issue to completion (R153, R160). -/

namespace Sys2Proof.Machine

/-! ## Issue (R151, R152) -/

/-- The opcode a CMD write latches is bits 7:0 of the written word (R120). -/
theorem commandByte_eq_extractLsb' (w : Word64) : commandByte w = w.extractLsb' 0 8 :=
  BitVec.setWidth_eq_extractLsb' (by decide)

/-- Issue clears DONE, so the interrupt wire is low after it whatever IE is. -/
theorem irq_issue (w : Word64) (s : State) : irq (issue w s) = false := by simp [irq]

/-- `cmd MNEMONIC` on an idle core leaves that command's opcode pending (R130, R151). -/
theorem hostStep_cmd_of_idle {s : State} (h : s.pending = none) (i : Instr) :
    hostStep (.cmd i) s =
      .next { s with pending := some (encode i), done := false, err := 0, answer := some .okay } := by
  obtain ⟨-, -, hbyte, -⟩ := encodingRoundTrip i
  calc hostStep (.cmd i) s
      _ = hostStep (.wr .cmd (encodeWord i)) s := rfl
      _ = .next (setAnswer .okay (issue (encodeWord i) s)) := hostStep_wr_cmd_of_idle h _
      _ = _ := by rw [← hbyte]; rfl

/-! ## Completion (R153, R160) -/

/-- The core's step on a pending legal opcode is the meaning of its command. -/
theorem coreStep_of_legal {s : State} {op : Byte} {i : Instr} (hp : s.pending = some op) (hd : decode op = .legal i) :
    coreStep s = exec i s := by
  rw [coreStep_eq, coreTurn, hp]
  dsimp only
  rw [hd]

/-- NOP has no checks and no writes, so it always completes with success. -/
theorem exec_nop (s : State) : exec .nop s = .next { s with err := 0, done := true, pending := none } := by
  have hpass : ∀ c ∈ checksOf .nop, checkPasses c s = true := by simp [checksOf]
  rw [exec_eq, completeChecked_of_pass hpass]
  rfl

/-! ## The obligations -/

/-- Settles O40: BUSY alone decides whether a CMD write issues its opcode or only sets OVR. -/
theorem commandWriteIssuesOrIsDropped : Obligations.CommandWriteIssuesOrIsDropped := by
  intro s w
  refine ⟨fun hidle => ⟨_, hostStep_wr_cmd_of_idle hidle w, irq_issue w s, ?issued⟩,
    fun op hp => ⟨_, hostStep_wr .cmd w s, ?dropped⟩⟩
  case issued =>
    rw [← commandByte_eq_extractLsb']
    rfl
  case dropped =>
    have hbusy : s.pending ≠ none := by simp [hp]
    rw [writeReg_of_dropped rfl hbusy]
    exact ⟨hp, rfl⟩

/-- Settles O11: `exec_nop` in every state, and the rule's example by the two steps it makes from reset. -/
theorem nopCompletesWithoutAKey : Obligations.NopCompletesWithoutAKey := by
  refine ⟨decode_encode .nop, exec_nop, _, _, hostStep_cmd_of_idle rfl .nop, ?completed, ?status, rfl⟩
  case completed => exact (coreStep_of_legal rfl (decode_encode .nop)).trans (exec_nop _)
  case status => decide

end Sys2Proof.Machine
end

section
/-! PROOFS. The family 41_bits_permutation.md: the bit converter (R180, R181) and the facts about the permutation tables
(R184, R191). -/

namespace Sys2Proof.Machine

/-! ## The bit converter, bit by bit (R180, R181) -/

/-- R180: element 8j + t of bytes_to_bits(m) is bit 7 - t of m[j]. -/
theorem getMsbD_bytesToBits (m : List Byte) {j t : Nat} (hj : j < m.length) (ht : t < 8) :
    (bytesToBits (8 * m.length) m).getMsbD (8 * j + t) = m[j].getLsbD (7 - t) := by
  have hindex : m.length - 1 - (8 * m.length - 1 - (8 * j + t)) / 8 = j := by omega
  have hbit : (8 * m.length - 1 - (8 * j + t)) % 8 = 7 - t := by omega
  rw [BitVec.getMsbD_eq_getLsbD, getLsbD_bytesToBits _ m rfl _ (by omega)]
  simp only [hindex, hbit, show 8 * j + t < 8 * m.length by omega, decide_true, Bool.true_and]

theorem length_bitsToBytes_bytes {k : Nat} (s : BitVec (8 * k)) : (bitsToBytes s).length = k := by simp

/-- R181: byte j of bits_to_bytes(s) has element 8j + t of s as its bit 7 - t. -/
theorem getLsbD_bitsToBytes {k : Nat} (s : BitVec (8 * k)) {j t : Nat} (hj : j < (bitsToBytes s).length) (ht : t < 8) :
    (bitsToBytes s)[j].getLsbD (7 - t) = s.getMsbD (8 * j + t) := by
  have hk : j < k := length_bitsToBytes_bytes s ▸ hj
  have hindex : 8 * k - 8 - 8 * j + (7 - t) = 8 * k - 1 - (8 * j + t) := by omega
  rw [getLsbD_getElem_bitsToBytes s j _ hj (by omega), hindex, BitVec.getMsbD_eq_getLsbD]
  simp [show 8 * j + t < 8 * k by omega]

/-! ## Equality of sequences and of bytes by their elements, most significant first -/

theorem eq_of_getMsbD_bytes {k : Nat} {s s' : BitVec (8 * k)}
    (h : ∀ j t, j < k → t < 8 → s.getMsbD (8 * j + t) = s'.getMsbD (8 * j + t)) : s = s' := by
  refine BitVec.eq_of_getMsbD_eq fun i hi => ?_
  have helement := h (i / 8) (i % 8) (by omega) (by omega)
  rwa [Nat.div_add_mod] at helement

theorem byte_eq_of_getLsbD {b b' : Byte} (h : ∀ t < 8, b.getLsbD (7 - t) = b'.getLsbD (7 - t)) : b = b' := by
  refine BitVec.eq_of_getLsbD_eq fun i hi => ?_
  have hbit := h (7 - i) (by omega)
  rwa [Nat.sub_sub_self (by omega)] at hbit

/-! ## Both directions are lossless -/

theorem bitsToBytes_bytesToBits (m : List Byte) : bitsToBytes (bytesToBits (8 * m.length) m) = m := by
  refine List.ext_getElem (length_bitsToBytes_bytes _) fun j hj hjm => byte_eq_of_getLsbD fun t ht => ?_
  rw [getLsbD_bitsToBytes _ hj ht, getMsbD_bytesToBits m hjm ht]

theorem bytesToBits_bitsToBytes {k : Nat} (s : BitVec (8 * k)) : bytesToBits (8 * k) (bitsToBytes s) = s := by
  have hlen := length_bitsToBytes_bytes s
  refine eq_of_getMsbD_bytes fun j t hj ht => ?_
  have hj' : j < (bitsToBytes s).length := hlen.symm ▸ hj
  have helement := getMsbD_bytesToBits (bitsToBytes s) hj' ht
  rw [getLsbD_bitsToBytes s hj' ht] at helement
  rwa [hlen] at helement

/-! ## Tables that contain every position of their input once (R191) -/

/-- n distinct entries from 1 to n are every position from 1 to n once. -/
theorem count_eq_one_of_nodup {n : Nat} {table : List Nat} (hnodup : table.Nodup)
    (hrange : table.length = n ∧ ∀ k ∈ table, 1 ≤ k ∧ k ≤ n) (k : Nat) (h1 : 1 ≤ k) (hn : k ≤ n) :
    table.count k = 1 := by
  obtain ⟨hlen, hmem⟩ := hrange
  have hsubset : table ⊆ List.range' 1 n := fun x hx => by
    obtain ⟨hx1, hxn⟩ := hmem x hx
    exact List.mem_range'_1.2 ⟨hx1, by omega⟩
  have hperm : table.Perm (List.range' 1 n) :=
    (List.subperm_of_subset hnodup hsubset).perm_of_length_le (by simp [hlen])
  exact List.count_eq_one_of_mem hnodup (hperm.mem_iff.2 (List.mem_range'_1.2 ⟨h1, by omega⟩))

theorem tableIP_nodup : tableIP.Nodup := by decide
theorem tableIPInv_nodup : tableIPInv.Nodup := by decide
theorem tableP_nodup : tableP.Nodup := by decide
theorem tablePC1_nodup : tablePC1.Nodup := by decide
theorem tablePC2_nodup : tablePC2.Nodup := by decide

/-! ## The other facts about the tables (R191) -/

theorem tablePC1_not_parity : ∀ k ∈ tablePC1, k % 8 ≠ 0 := by decide

theorem tableIPInv_tableIP : ∀ k < 65, 1 ≤ k → tableIPInv.getD (tableIP.getD (k - 1) 0 - 1) 0 = k := by decide

/-- The positions that E selects twice: the two at each end of every group of four. -/
def positionsTwiceInE : List Nat := [1, 4, 5, 8, 9, 12, 13, 16, 17, 20, 21, 24, 25, 28, 29, 32]

theorem tableE_count_eq_two_iff (k : Nat) : k ∈ positionsTwiceInE ↔ tableE.count k = 2 := by
  have htwice : ∀ x ∈ positionsTwiceInE, tableE.count x = 2 := by decide
  have honly : ∀ x ∈ tableE, tableE.count x = 2 → x ∈ positionsTwiceInE := by decide
  refine ⟨htwice k, fun hcount => honly k ?_ hcount⟩
  exact List.count_pos_iff.1 (by omega)

theorem tableE_count : ∀ k < 33, 1 ≤ k → tableE.count k = 1 ∨ tableE.count k = 2 := by decide

/-! ## The obligations -/

/-- Settles O42: each direction bit by bit, and from the two the inverses, element by element. -/
theorem bitConverterIsLossless : Obligations.BitConverterIsLossless := by
  refine ⟨fun k m hm => ?toBits, fun k s => ⟨bytesToBits_bitsToBytes s, length_bitsToBytes_bytes s, ?toBytes⟩⟩
  case toBits =>
    subst hm
    refine ⟨bitsToBytes_bytesToBits m, fun j t hj ht => ?_⟩
    rw [List.getD_eq_getElem m 0 hj, getMsbD_bytesToBits m hj ht]
  case toBytes =>
    intro j t hj ht
    have hj' : j < (bitsToBytes s).length := (length_bitsToBytes_bytes s).symm ▸ hj
    rw [List.getD_eq_getElem _ 0 hj', getLsbD_bitsToBytes s hj' ht]

/-- Settles O43: the ranges are those of the fitting tables; a table without repetition that is as long as its input
contains every position once; the rest is evaluation over the entries. -/
theorem permutationTablesMeetTheirFacts : Obligations.PermutationTablesMeetTheirFacts := by
  obtain ⟨hlenIP, hIP⟩ := tableIP_range
  obtain ⟨hlenIPInv, hIPInv⟩ := tableIPInv_range
  obtain ⟨hlenE, hE⟩ := tableE_range
  obtain ⟨hlenP, hP⟩ := tableP_range
  obtain ⟨hlenPC1, hPC1⟩ := tablePC1_range
  refine ⟨?range64, ?range32, tablePC2_range.2, ?onceIP, count_eq_one_of_nodup tableP_nodup tableP_range, hlenIP, hlenIPInv,
    hlenP, fun k h1 h32 => tableE_count k (by omega) h1, hlenE, tableE_count_eq_two_iff,
    ⟨tablePC1_nodup, hlenPC1, ?entriesPC1⟩, ⟨tablePC2_nodup, tablePC2_range⟩,
    fun k h1 h64 => tableIPInv_tableIP k (by omega) h1⟩
  case range64 =>
    intro k hk
    obtain (hk | hk) | hk := by simpa only [List.mem_append] using hk
    · exact hIP k hk
    · exact hIPInv k hk
    · exact hPC1 k hk
  case range32 =>
    intro k hk
    obtain hk | hk := List.mem_append.1 hk
    · exact hE k hk
    · exact hP k hk
  case onceIP =>
    exact fun k h1 h64 => ⟨count_eq_one_of_nodup tableIP_nodup tableIP_range k h1 h64,
      count_eq_one_of_nodup tableIPInv_nodup tableIPInv_range k h1 h64⟩
  case entriesPC1 =>
    intro k hk
    obtain ⟨h1, h64⟩ := hPC1 k hk
    exact ⟨h1, h64, tablePC1_not_parity k hk⟩

end Sys2Proof.Machine
end

section
/-! PROOFS. The family 42_key_schedule.md: rotation of the key halves (R212, R215), the parity bits (R213) and the keys with
equal round keys (R218). -/

namespace Sys2Proof.Machine

/-! ## Rotation of a key half (R212, R215) -/

theorem rotl_rotl (h : KeyHalf) (m n : Nat) : rotl (rotl h m) n = rotl h (m + n) := by
  refine BitVec.eq_of_getMsbD_eq fun i hi => ?_
  have hin : (n + i) % 28 < 28 := Nat.mod_lt _ (by decide)
  rw [getMsbD_rotl _ _ _ hi, getMsbD_rotl _ _ _ hin, getMsbD_rotl _ _ _ hi, Nat.add_mod_mod, Nat.add_assoc]

@[simp] theorem rotl_zero (h : KeyHalf) : rotl h 0 = h := by
  refine BitVec.eq_of_getMsbD_eq fun i hi => ?_
  rw [getMsbD_rotl _ _ _ hi, Nat.zero_add, Nat.mod_eq_of_lt hi]

theorem rotl_width (h : KeyHalf) : rotl h 28 = h :=
  calc rotl h 28
    _ = rotl h (28 % 28) := BitVec.rotateLeft_mod_eq_rotateLeft.symm
    _ = h := rotl_zero h

/-- R214: rotations one after another are one rotation by their sum. -/
theorem foldl_rotl (h : KeyHalf) (ns : List Nat) : ns.foldl rotl h = rotl h ns.sum := by
  induction ns generalizing h with
  | nil => exact (rotl_zero h).symm
  | cons n ns ih => rw [List.foldl_cons, ih, rotl_rotl, List.sum_cons]

/-- A half whose elements are all equal is left as it is by every rotation. -/
theorem rotl_of_uniform {h : KeyHalf} (hu : h = 0 ∨ h = BitVec.allOnes 28) (n : Nat) : rotl h n = h := by
  refine BitVec.eq_of_getMsbD_eq fun i hi => ?_
  have hin : (n + i) % 28 < 28 := Nat.mod_lt _ (by decide)
  rw [getMsbD_rotl _ _ _ hi]
  obtain rfl | rfl := hu
  · simp
  · simp only [BitVec.getMsbD_allOnes, hin, hi]

/-! ## What the round keys depend on (R213, R214) -/

/-- PC-1 selects no multiple of 8, counted from 1, so it never reads KEY[0], KEY[8], ..., KEY[56]. -/
theorem permPC1_congr {k k' : Word64} (h : ∀ i < 64, i % 8 ≠ 0 → k.getLsbD i = k'.getLsbD i) :
    permPC1 k = permPC1 k' := by
  obtain ⟨hlen, hrange⟩ := tablePC1_range
  refine permute_congr 56 tablePC1 k k' hlen fun p hp => ?_
  have hparity := tablePC1_not_parity p hp
  obtain ⟨h1, h64⟩ := hrange p hp
  rw [BitVec.getMsbD_eq_getLsbD, BitVec.getMsbD_eq_getLsbD, h (64 - 1 - (p - 1)) (by omega) (by omega)]

/-- The key enters the schedule through PC-1 only. -/
theorem deriveRoundKeys_congr {k k' : Word64} (h : permPC1 k = permPC1 k') : deriveRoundKeys k = deriveRoundKeys k' := by
  simp only [deriveRoundKeys, keyC0, keyD0, h]

/-! ## KEYSCHED accepts every key (R213, R220) -/

theorem exec_keysched_of_keyv {s : State} (h : s.keyv = true) :
    exec .keysched s = .next (succeed (keyschedWrites s) s) := by
  have hpass : ∀ c ∈ checksOf .keysched, checkPasses c s = true := by simp [checksOf, checkPasses, h]
  rw [exec_eq, completeChecked_of_pass hpass]
  rfl

/-! ## Halves that no rotation changes give equal round keys (R218) -/

theorem roundKeysFrom_of_rotl_fixed {c d : KeyHalf} (hc : ∀ n, rotl c n = c) (hd : ∀ n, rotl d n = d) (ns : List Nat) :
    roundKeysFrom c d ns = List.replicate ns.length (permPC2 (joinHalves c d)) := by
  induction ns with
  | nil => rfl
  | cons n ns ih => rw [roundKeysFrom, hc, hd, ih, List.length_cons, List.replicate_succ]

/-- The keys R218 names. -/
def keysWithEqualRoundKeys : List Word64 :=
  [0x0101010101010101, 0xFEFEFEFEFEFEFEFE, 0x1F1F1F1F0E0E0E0E, 0xE0E0E0E0F1F1F1F1]

/-- C0 ++ D0 with one value throughout C0 and one throughout D0. -/
def uniformHalfPairs : List (BitVec 56) :=
  [0x00000000000000, 0xFFFFFFFFFFFFFF, 0x0000000FFFFFFF, 0xFFFFFFF0000000]

theorem uniform_of_mem_uniformHalfPairs : ∀ cd ∈ uniformHalfPairs,
    (cd.extractLsb' 28 28 = 0 ∨ cd.extractLsb' 28 28 = BitVec.allOnes 28) ∧
      (cd.extractLsb' 0 28 = 0 ∨ cd.extractLsb' 0 28 = BitVec.allOnes 28) := by
  simp [uniformHalfPairs]

theorem map_permPC1_keysWithEqualRoundKeys : keysWithEqualRoundKeys.map permPC1 = uniformHalfPairs := by
  decide +kernel

theorem uniform_halves_of_keysWithEqualRoundKeys {k : Word64} (hk : k ∈ keysWithEqualRoundKeys) :
    (keyC0 k = 0 ∨ keyC0 k = BitVec.allOnes 28) ∧ (keyD0 k = 0 ∨ keyD0 k = BitVec.allOnes 28) := by
  have hmem : permPC1 k ∈ uniformHalfPairs := map_permPC1_keysWithEqualRoundKeys ▸ List.mem_map_of_mem hk
  exact uniform_of_mem_uniformHalfPairs _ hmem

theorem deriveRoundKeys_of_keysWithEqualRoundKeys {k : Word64} (hk : k ∈ keysWithEqualRoundKeys) :
    deriveRoundKeys k = List.replicate 16 (permPC2 (joinHalves (keyC0 k) (keyD0 k))) := by
  obtain ⟨hc, hd⟩ := uniform_halves_of_keysWithEqualRoundKeys hk
  exact roundKeysFrom_of_rotl_fixed (rotl_of_uniform hc) (rotl_of_uniform hd) shifts

/-! ## The obligations -/

/-- Settles O48: PC-1 does not select a parity bit and everything else reads the key through PC-1; a KEY write sets KEYV,
the one check of KEYSCHED. -/
theorem parityBitsAreNeverRead : Obligations.ParityBitsAreNeverRead := by
  refine ⟨fun k k' h => ?sameCipher, fun s k hidle => ?accepted⟩
  case sameCipher =>
    have hrk := deriveRoundKeys_congr (permPC1_congr h)
    exact ⟨hrk, fun x => by simp only [desEnc, desDec, hrk, and_self]⟩
  case accepted =>
    have hkeyv : (setAnswer .okay (loadKey k s)).keyv = true := by simp
    exact ⟨_, _, hostStep_wr_of_idle (loadKey k) rfl hidle, exec_keysched_of_keyv hkeyv, rfl⟩

/-- Settles O49: the round keys are one key sixteen times, so a list that is its own reverse. -/
theorem weakKeysEncipherAsTheyDecipher : Obligations.WeakKeysEncipherAsTheyDecipher := by
  intro k hk
  have hrk := deriveRoundKeys_of_keysWithEqualRoundKeys hk
  refine ⟨fun i hi => ?equalKeys, fun x => ?sameFunction⟩
  case equalKeys => rw [hrk, List.getD_replicate _ hi, List.getD_replicate _ (by decide)]
  case sameFunction => rw [desEnc, desDec, hrk, List.reverse_replicate]

/-- Settles O47: sixteen rotations are one by the sum of the shifts, which is the width of a half. -/
theorem keyHalvesReturnToTheirStart : Obligations.KeyHalvesReturnToTheirStart := by
  have hsum : shifts.sum = 28 := by decide
  exact ⟨hsum, fun h => by rw [foldl_rotl, hsum, rotl_width]⟩

end Sys2Proof.Machine
end

section
/-! PROOFS. The family 43_sbox_round_function.md: the rows of the S-boxes (R250) and the worked example and the corner
cases of f (R253). -/

namespace Sys2Proof.Machine

/-! ## Rows that contain every value once (R250) -/

/-- n distinct entries below n are every value below n once: `count_eq_one_of_nodup`, with positions counted from 0. -/
theorem count_eq_one_of_nodup_of_lt {n : Nat} {row : List Nat} (hnodup : row.Nodup) (hlen : row.length = n)
    (hlt : ∀ x ∈ row, x < n) {v : Nat} (hv : v < n) : row.count v = 1 := by
  have hnodup' : (row.map Nat.succ).Nodup := hnodup.map Nat.succ_injective
  have hrange : (row.map Nat.succ).length = n ∧ ∀ k ∈ row.map Nat.succ, 1 ≤ k ∧ k ≤ n :=
    ⟨by rw [List.length_map, hlen], List.forall_mem_map.2 fun x hx => ⟨Nat.succ_pos x, hlt x hx⟩⟩
  rw [← List.count_map_of_injective row Nat.succ Nat.succ_injective]
  exact count_eq_one_of_nodup hnodup' hrange v.succ (Nat.succ_pos v) hv

theorem sboxes_rows_nodup : ∀ box ∈ sboxes, ∀ row ∈ box, row.Nodup := by decide

/-! ## E on the sequences without a change of element (R187) -/

theorem permE_zero : permE 0 = 0 := by
  refine BitVec.eq_of_getMsbD_eq fun i hi => ?_
  rw [permE, getMsbD_permute 48 tableE 0 tableE_range.1 i hi]
  simp

theorem permE_allOnes : permE (BitVec.allOnes 32) = BitVec.allOnes 48 := by
  obtain ⟨hlen, hrange⟩ := tableE_range
  refine BitVec.eq_of_getMsbD_eq fun i hi => ?_
  obtain ⟨h1, h32⟩ := hrange tableE[i] (List.getElem_mem _)
  have hin : tableE[i] - 1 < 32 := by omega
  rw [permE, getMsbD_permute 48 tableE _ hlen i hi, BitVec.getMsbD_allOnes, BitVec.getMsbD_allOnes]
  exact (decide_eq_true hin).trans (decide_eq_true hi).symm

/-! ## f by its stages (R252) -/

/-- f reads R and K only through E(R) XOR K. -/
theorem roundF_of_xor {r : Half} {k : RoundKey} {x : BitVec 48} (hx : permE r ^^^ k = x) :
    roundF r k = permP (sboxStage x) := by rw [roundF, hx]

/-! ## The stages of the worked example and of the corner cases (R253) -/

theorem permE_workedExample : permE 0xF0AAF0AA = 0x7A15557A1555 := by decide +kernel
theorem xor_workedExample : permE 0xF0AAF0AA ^^^ 0x1B02EFFC7072 = 0x6117BA866527 := by
  rw [permE_workedExample]; decide
theorem sboxStage_workedExample : sboxStage 0x6117BA866527 = 0x5C82B597 := by decide +kernel
theorem permP_workedExample : permP 0x5C82B597 = 0x234AA9BB := by decide +kernel

theorem permP_sboxStage_zero : permP (sboxStage 0) = 0xD8D8DBBC := by decide +kernel
theorem permP_sboxStage_allOnes : permP (sboxStage (BitVec.allOnes 48)) = 0x38DBF9CB := by decide +kernel

theorem roundF_zero_zero : roundF 0 0 = 0xD8D8DBBC := by
  have hx : permE 0 ^^^ 0 = 0 := by rw [permE_zero]; exact BitVec.xor_self
  rw [roundF_of_xor hx, permP_sboxStage_zero]

theorem roundF_allOnes_zero : roundF (BitVec.allOnes 32) 0 = 0x38DBF9CB := by
  have hx : permE (BitVec.allOnes 32) ^^^ 0 = BitVec.allOnes 48 := by rw [permE_allOnes]; exact BitVec.xor_zero
  rw [roundF_of_xor hx, permP_sboxStage_allOnes]

theorem roundF_zero_allOnes : roundF 0 (BitVec.allOnes 48) = 0x38DBF9CB := by
  have hx : permE 0 ^^^ BitVec.allOnes 48 = BitVec.allOnes 48 := by rw [permE_zero]; exact BitVec.zero_xor
  rw [roundF_of_xor hx, permP_sboxStage_allOnes]

/-! ## The obligations -/

/-- Settles O44: the boxes have their shape, and a row of sixteen distinct entries below 16 contains every value below 16
once. -/
theorem sboxRowsArePermutations : Obligations.SboxRowsArePermutations := by
  obtain ⟨hboxes, hshape⟩ := sboxes_shape
  refine ⟨hboxes, fun box hbox => ?_⟩
  obtain ⟨hrows, hentries⟩ := hshape box hbox
  refine ⟨hrows, fun row hrow => ?_⟩
  obtain ⟨hlen, hlt⟩ := hentries row hrow
  exact ⟨hlen, fun v hv => count_eq_one_of_nodup_of_lt (sboxes_rows_nodup box hbox row hrow) hlen hlt hv⟩

/-- Settles O50: the result of the worked example is that of its stages; in the last two corner cases E(R) XOR K is all
ones. -/
theorem roundFunctionWorkedExample : Obligations.RoundFunctionWorkedExample := by
  have hresult : roundF 0xF0AAF0AA 0x1B02EFFC7072 = 0x234AA9BB := by
    rw [roundF_of_xor xor_workedExample, sboxStage_workedExample, permP_workedExample]
  exact ⟨permE_workedExample, xor_workedExample, sboxStage_workedExample, hresult, roundF_zero_zero, roundF_allOnes_zero,
    roundF_zero_allOnes⟩

end Sys2Proof.Machine
end

section
/-! PROOFS. The family 44_feistel_block.md: the block engine on reversed round keys (R278) and on complemented inputs
(R279). -/

namespace Sys2Proof.Machine

/-! ## The initial and the final permutation undo each other (R186) -/

/-- A permutation after another undoes it when its table holds, at each entry of the other's, the place of that entry. -/
theorem permute_permute_of_inverse {n : Nat} {outer inner : List Nat} (houter : outer.length = n ∧ ∀ k ∈ outer, 1 ≤ k ∧ k ≤ n)
    (hinner : inner.length = n) (hinv : ∀ k < n + 1, 1 ≤ k → inner.getD (outer.getD (k - 1) 0 - 1) 0 = k)
    (s : BitVec n) : permute n outer (permute n inner s) = s := by
  obtain ⟨hlen, hrange⟩ := houter
  refine BitVec.eq_of_getMsbD_eq fun i hi => ?_
  obtain ⟨h1, hn⟩ := hrange outer[i] (List.getElem_mem _)
  have hplace : outer[i] - 1 < n := by omega
  have hentry : inner[outer[i] - 1] = i + 1 := by
    have h := hinv (i + 1) (by omega) (by omega)
    rwa [Nat.add_sub_cancel, List.getD_eq_getElem outer 0 (by omega), List.getD_eq_getElem inner 0 (by omega)] at h
  rw [getMsbD_permute n outer _ hlen i hi, getMsbD_permute n inner s hinner _ hplace, hentry, Nat.add_sub_cancel]

theorem tableIP_tableIPInv : ∀ k < 65, 1 ≤ k → tableIP.getD (tableIPInv.getD (k - 1) 0 - 1) 0 = k := by decide

theorem permIPInv_permIP (x : Word64) : permIPInv (permIP x) = x :=
  permute_permute_of_inverse tableIPInv_range tableIP_range.1 tableIP_tableIPInv x

theorem permIP_permIPInv (x : Word64) : permIP (permIPInv x) = x :=
  permute_permute_of_inverse tableIP_range tableIPInv_range.1 tableIPInv_tableIP x

/-! ## The split and the final swap (R272, R274) -/

theorem splitBlock_swapJoin (lr : Half × Half) : splitBlock (swapJoin lr) = lr.swap :=
  Prod.ext BitVec.extractLsb'_append_eq_left BitVec.extractLsb'_append_eq_right

theorem swapJoin_swap_splitBlock (y : Word64) : swapJoin (splitBlock y).swap = y :=
  BitVec.extractLsb'_append_extractLsb' (w := 32) (len := 32)

/-! ## The rounds on swapped halves and reversed keys (R273, R278) -/

/-- R kept its value and XORs the same f into L again. -/
theorem feistelRound_swap_feistelRound (lr : Half × Half) (k : RoundKey) :
    feistelRound (feistelRound lr k).swap k = lr.swap := by
  obtain ⟨l, r⟩ := lr
  have hleft : (l ^^^ roundF r k) ^^^ roundF r k = l := by rw [BitVec.xor_assoc, BitVec.xor_self, BitVec.xor_zero]
  exact congrArg (Prod.mk r) hleft

theorem feistelRounds_swap_feistelRounds (lr : Half × Half) (ks : List RoundKey) :
    feistelRounds (feistelRounds lr ks).swap ks.reverse = lr.swap := by
  induction ks generalizing lr with
  | nil => rfl
  | cons k ks ih =>
    calc feistelRounds (feistelRounds lr (k :: ks)).swap (k :: ks).reverse
      _ = feistelRound (feistelRounds (feistelRounds (feistelRound lr k) ks).swap ks.reverse) k := by
        simp [feistelRounds]
      _ = feistelRound (feistelRound lr k).swap k := by rw [ih]
      _ = lr.swap := feistelRound_swap_feistelRound lr k

/-- R278, for any list of round keys. -/
theorem feistel_reverse_feistel (x : Word64) (ks : List RoundKey) : feistel (feistel x ks) ks.reverse = x := by
  unfold feistel
  rw [permIP_permIPInv, splitBlock_swapJoin, feistelRounds_swap_feistelRounds, swapJoin_swap_splitBlock, permIPInv_permIP]

theorem desDec_desEnc (x k : Word64) : desDec (desEnc x k) k = x := feistel_reverse_feistel x (deriveRoundKeys k)

theorem desEnc_desDec (x k : Word64) : desEnc (desDec x k) k = x := by
  have h := feistel_reverse_feistel x (deriveRoundKeys k).reverse
  rwa [List.reverse_reverse] at h

/-! ## Selections commute with the complement (R183, R212) -/

theorem permute_not {n m : Nat} {table : List Nat} (h : table.length = m ∧ ∀ k ∈ table, 1 ≤ k ∧ k ≤ n) (s : BitVec n) :
    permute m table (~~~s) = ~~~(permute m table s) := by
  obtain ⟨hlen, hrange⟩ := h
  refine BitVec.eq_of_getMsbD_eq fun i hi => ?_
  obtain ⟨h1, hn⟩ := hrange table[i] (List.getElem_mem _)
  have hplace : table[i] - 1 < n := by omega
  rw [getMsbD_permute m table _ hlen i hi, BitVec.getMsbD_not, BitVec.getMsbD_not, getMsbD_permute m table s hlen i hi]
  simp only [hplace, hi]

theorem permIP_not (x : Word64) : permIP (~~~x) = ~~~(permIP x) := permute_not tableIP_range x
theorem permIPInv_not (x : Word64) : permIPInv (~~~x) = ~~~(permIPInv x) := permute_not tableIPInv_range x
theorem permE_not (r : Half) : permE (~~~r) = ~~~(permE r) := permute_not tableE_range r
theorem permPC1_not (k : Word64) : permPC1 (~~~k) = ~~~(permPC1 k) := permute_not tablePC1_range k
theorem permPC2_not (cd : BitVec 56) : permPC2 (~~~cd) = ~~~(permPC2 cd) := permute_not tablePC2_range cd

theorem rotl_not (h : KeyHalf) (n : Nat) : rotl (~~~h) n = ~~~(rotl h n) := by
  refine BitVec.eq_of_getMsbD_eq fun i hi => ?_
  have hin : (n + i) % 28 < 28 := Nat.mod_lt _ (by decide)
  rw [getMsbD_rotl _ _ _ hi, BitVec.getMsbD_not, BitVec.getMsbD_not, getMsbD_rotl _ _ _ hi]
  simp only [hin, hi]

/-- `BitVec.extractLsb'_not_of_lt` with the last bit allowed in the range. -/
theorem extractLsb'_not_of_le {w start len : Nat} (x : BitVec w) (h : start + len ≤ w) :
    (~~~x).extractLsb' start len = ~~~(x.extractLsb' start len) := by
  refine BitVec.eq_of_getLsbD_eq fun i hi => ?_
  have hin : start + i < w := by omega
  simp [hi, hin]

/-! ## A complemented key gives complemented round keys (R214, R279) -/

theorem keyC0_not (k : Word64) : keyC0 (~~~k) = ~~~(keyC0 k) := by
  rw [keyC0, permPC1_not, extractLsb'_not_of_le _ (by decide), keyC0]

theorem keyD0_not (k : Word64) : keyD0 (~~~k) = ~~~(keyD0 k) := by
  rw [keyD0, permPC1_not, extractLsb'_not_of_le _ (by decide), keyD0]

theorem joinHalves_not (c d : KeyHalf) : joinHalves (~~~c) (~~~d) = ~~~(joinHalves c d) := BitVec.not_append.symm

theorem roundKeysFrom_not (c d : KeyHalf) (ns : List Nat) :
    roundKeysFrom (~~~c) (~~~d) ns = (roundKeysFrom c d ns).map (~~~·) := by
  induction ns generalizing c d with
  | nil => rfl
  | cons n ns ih =>
    rw [roundKeysFrom, rotl_not, rotl_not, joinHalves_not, permPC2_not, ih, roundKeysFrom, List.map_cons]

theorem deriveRoundKeys_not (k : Word64) : deriveRoundKeys (~~~k) = (deriveRoundKeys k).map (~~~·) := by
  rw [deriveRoundKeys, keyC0_not, keyD0_not, roundKeysFrom_not, deriveRoundKeys]

/-! ## The block engine on complemented inputs (R279) -/

/-- E(~R) XOR ~K = E(R) XOR K, and f reads nothing else. -/
theorem roundF_not_not (r : Half) (k : RoundKey) : roundF (~~~r) (~~~k) = roundF r k := by
  have hx : permE (~~~r) ^^^ ~~~k = permE r ^^^ k := by
    rw [permE_not, ← BitVec.not_xor_right, ← BitVec.not_xor_left, BitVec.not_not]
  exact roundF_of_xor hx

/-- Both halves of a block, complemented. -/
def notHalves (lr : Half × Half) : Half × Half := (~~~lr.1, ~~~lr.2)

theorem splitBlock_not (y : Word64) : splitBlock (~~~y) = notHalves (splitBlock y) :=
  Prod.ext (extractLsb'_not_of_le y (by decide)) (extractLsb'_not_of_le y (by decide))

theorem swapJoin_notHalves (lr : Half × Half) : swapJoin (notHalves lr) = ~~~(swapJoin lr) := BitVec.not_append.symm

theorem feistelRound_notHalves (lr : Half × Half) (k : RoundKey) :
    feistelRound (notHalves lr) (~~~k) = notHalves (feistelRound lr k) := by
  obtain ⟨l, r⟩ := lr
  have hright : ~~~l ^^^ roundF (~~~r) (~~~k) = ~~~(l ^^^ roundF r k) := by rw [roundF_not_not, BitVec.not_xor_left]
  exact congrArg (Prod.mk (~~~r)) hright

theorem feistelRounds_notHalves (lr : Half × Half) (ks : List RoundKey) :
    feistelRounds (notHalves lr) (ks.map (~~~·)) = notHalves (feistelRounds lr ks) := by
  unfold feistelRounds
  rw [List.foldl_map]
  exact List.foldl_hom notHalves fun lr k => feistelRound_notHalves lr k

theorem feistel_not (x : Word64) (ks : List RoundKey) : feistel (~~~x) (ks.map (~~~·)) = ~~~(feistel x ks) := by
  unfold feistel
  rw [permIP_not, splitBlock_not, feistelRounds_notHalves, swapJoin_notHalves, permIPInv_not]

theorem desEnc_not_not (x k : Word64) : desEnc (~~~x) (~~~k) = ~~~(desEnc x k) := by
  rw [desEnc, deriveRoundKeys_not, feistel_not, desEnc]

/-- The block and key that R279's example complements. -/
theorem desEnc_workedExample : desEnc 0x0123456789ABCDEF 0x133457799BBCDFF1 = 0x85E813540F0AB405 := by decide +kernel

/-! ## The obligations -/

/-- Settles O51: a round on swapped halves undoes itself, so the reversed keys undo the rounds from the last to the first. -/
theorem reversedRoundKeysUndoTheBlockEngine : Obligations.ReversedRoundKeysUndoTheBlockEngine :=
  ⟨feistel_reverse_feistel, fun x k => ⟨desDec_desEnc x k, desEnc_desDec x k⟩⟩

/-- Settles O52: the round keys are complemented with the key, f is unchanged, and each round complements with its halves;
the example is the complement of `desEnc_workedExample`. -/
theorem complementedInputsGiveTheComplementedCiphertext : Obligations.ComplementedInputsGiveTheComplementedCiphertext := by
  have hcipher : (0x7A17ECABF0F54BFA : Word64) = ~~~0x85E813540F0AB405 := by decide
  have hexample : desEnc 0xFEDCBA9876543210 0xECCBA8866443200E = 0x7A17ECABF0F54BFA :=
    calc desEnc 0xFEDCBA9876543210 0xECCBA8866443200E
      _ = ~~~(desEnc 0x0123456789ABCDEF 0x133457799BBCDFF1) := desEnc_not_not 0x0123456789ABCDEF 0x133457799BBCDFF1
      _ = 0x7A17ECABF0F54BFA := by rw [desEnc_workedExample, hcipher]
  exact ⟨desEnc_not_not, hexample, hcipher⟩

end Sys2Proof.Machine
end

section
/-! PROOFS. The family 45_padding_modes.md: the length of padded messages (R303) and the length checks of the MSG commands
(R306). -/

namespace Sys2Proof.Machine

/-! ## The length of a padded message (R303) -/

theorem length_pad_of_aligned {m : List Byte} (h : m.length % 8 = 0) : (pad m).length = m.length := by
  rw [pad, if_pos h]

theorem length_pad_of_unaligned {m : List Byte} (h : m.length % 8 ≠ 0) :
    (pad m).length = m.length + 8 - m.length % 8 := by
  rw [pad, if_neg h, List.length_append, List.length_replicate]
  omega

/-- Both cases of R303 at once: the length rounded up to whole blocks. -/
theorem length_pad (m : List Byte) : (pad m).length = 8 * ((m.length + 7) / 8) := by
  by_cases h : m.length % 8 = 0
  · rw [length_pad_of_aligned h]
    omega
  · rw [length_pad_of_unaligned h]
    omega

/-- MSGBUF holds whole blocks, so rounding up to whole blocks stays within it. -/
theorem length_pad_le_msgbufBytes {m : List Byte} (h : m.length ≤ Config.msgbufBytes) :
    (pad m).length ≤ Config.msgbufBytes := by
  have hwhole := Config.msgbufBytes_mod_eight
  rw [length_pad]
  omega

/-! ## Which error a command's completion raises (R155, R156) -/

theorem errValue_inj {e e' : ErrCode} : errValue e = errValue e' ↔ e = e' := by
  cases e <;> cases e' <;> decide

/-- STATUS.ERR tells which error was raised. -/
theorem raiseError_inj {e e' : ErrCode} {s : State} : raiseError e s = raiseError e' s ↔ e = e' :=
  ⟨fun h => errValue_inj.1 (congrArg State.err h), fun h => by rw [h]⟩

/-- A success leaves ERR = 0, and no error has that number. -/
theorem succeed_ne_raiseError (w : Writes) (e : ErrCode) (s : State) : succeed w s ≠ raiseError e s := by
  intro h
  have herr : 0 = errValue e := congrArg State.err h
  have hpos := (errValue_pos_le e).1
  simp [← herr] at hpos

/-- A command completes as an error does exactly when that error is the one its checks give. -/
theorem exec_eq_raiseError_iff (i : Instr) (e : ErrCode) (s : State) :
    exec i s = .next (raiseError e s) ↔ firstFailure (checksOf i) s = some e := by
  rw [exec_eq, Host.Outcome.next.injEq]
  rcases completeChecked_cases (checksOf i) (writesOf i) s with ⟨e', hfail, hdone⟩ | ⟨hpass, hdone⟩
  · rw [hdone, hfail, raiseError_inj, Option.some.injEq]
  · simp [hdone, hpass, succeed_ne_raiseError]

/-! ## The length checks (R306) -/

/-- A check that passes leaves the error to the checks after it. -/
theorem firstFailure_cons_of_pass {c : Check} {s : State} (h : checkPasses c s = true) (cs : List Check) :
    firstFailure (c :: cs) s = firstFailure cs s := by
  rw [firstFailure, if_pos h]

theorem firstFailure_encryptLength (s : State) :
    firstFailure [.encryptLength] s = some .length ↔ Config.msgbufBytes < s.msgLen.toNat := by
  simp [firstFailure, checkPasses, checkError]

theorem firstFailure_decryptLength (s : State) :
    firstFailure [.decryptLength] s = some .length ↔
      Config.msgbufBytes < s.msgLen.toNat ∨ s.msgLen.toNat % 8 ≠ 0 := by
  simp [firstFailure, checkPasses, checkError, imp_iff_not_or, or_comm]

/-- With KEYV = IVV = 1 a MSG command of either mode is left with its last check, the length check. -/
theorem firstFailure_of_keyLoaded_of_ivLoaded {i : Instr} {c : Check} {s : State}
    (hi : checksOf i = [.keyLoaded, c] ∨ checksOf i = [.keyLoaded, .ivLoaded, c]) (hk : s.keyv = true)
    (hv : s.ivv = true) : firstFailure (checksOf i) s = firstFailure [c] s := by
  have hkey : ∀ cs, firstFailure (.keyLoaded :: cs) s = firstFailure cs s := firstFailure_cons_of_pass hk
  have hiv : ∀ cs, firstFailure (.ivLoaded :: cs) s = firstFailure cs s := firstFailure_cons_of_pass hv
  rcases hi with hecb | hcbc
  · rw [hecb, hkey]
  · rw [hcbc, hkey, hiv]

/-! ## The obligation -/

/-- Settles O54: padding rounds up to whole blocks, and past the key and IV checks the length check alone decides whether
the completion is that of the length error. -/
theorem paddedLengthAndLengthChecks : Obligations.PaddedLengthAndLengthChecks := by
  refine ⟨fun m => ⟨length_pad_of_aligned, length_pad_of_unaligned, length_pad m, length_pad_le_msgbufBytes⟩,
    fun s i hk hv => ⟨fun hi => ?encryption, fun hi => ?decryption⟩⟩
  case encryption =>
    have hchecks := firstFailure_of_keyLoaded_of_ivLoaded (c := .encryptLength)
      (hi.imp (congrArg checksOf) (congrArg checksOf)) hk hv
    calc exec i s = .next (raiseError .length s)
      _ ↔ firstFailure (checksOf i) s = some .length := exec_eq_raiseError_iff i .length s
      _ ↔ firstFailure [.encryptLength] s = some .length := by rw [hchecks]
      _ ↔ Config.msgbufBytes < s.msgLen.toNat := firstFailure_encryptLength s
  case decryption =>
    have hchecks := firstFailure_of_keyLoaded_of_ivLoaded (c := .decryptLength)
      (hi.imp (congrArg checksOf) (congrArg checksOf)) hk hv
    calc exec i s = .next (raiseError .length s)
      _ ↔ firstFailure (checksOf i) s = some .length := exec_eq_raiseError_iff i .length s
      _ ↔ firstFailure [.decryptLength] s = some .length := by rw [hchecks]
      _ ↔ Config.msgbufBytes < s.msgLen.toNat ∨ s.msgLen.toNat % 8 ≠ 0 := firstFailure_decryptLength s

end Sys2Proof.Machine
end

section
/-! PROOFS. The family 70_reset_and_hazards.md: what clears KEYV and IVV (R393). -/

namespace Sys2Proof.Machine

/-! ## KEYV and IVV from one state to the next (R36, R37) -/

/-- Neither KEYV nor IVV is cleared from `s` to `t`. -/
def LoadFlagsKept (s t : State) : Prop :=
  (s.keyv = true → t.keyv = true) ∧ (s.ivv = true → t.ivv = true)

theorem loadFlagsKept_of_eq {s t : State} (hk : t.keyv = s.keyv) (hv : t.ivv = s.ivv) : LoadFlagsKept s t :=
  ⟨hk.trans, hv.trans⟩

/-- Taking a turn from the agenda touches neither flag. -/
theorem loadFlagsKept_of_setAgenda {ts : List Turn} {s t : State} (h : LoadFlagsKept (setAgenda ts s) t) :
    LoadFlagsKept s t := h

theorem loadFlagsKept_loadKey (w : Word64) (s : State) : LoadFlagsKept s (loadKey w s) :=
  ⟨fun _ => loadKey_keyv s w, (loadKey_ivv s w).trans⟩

theorem loadFlagsKept_loadIv (w : Word64) (s : State) : LoadFlagsKept s (loadIv w s) :=
  ⟨(loadIv_keyv s w).trans, fun _ => loadIv_ivv s w⟩

/-- A dropped write changes OVR alone, so a write that is guarded by BUSY clears a flag only if its effect does. -/
theorem loadFlagsKept_acceptWhenIdle {write : State → State} {s : State} (h : LoadFlagsKept s (write s)) :
    LoadFlagsKept s (acceptWhenIdle write s) := by
  by_cases hp : s.pending = none
  · rwa [acceptWhenIdle_of_idle hp]
  · rw [acceptWhenIdle_of_busy hp]
    exact loadFlagsKept_of_eq rfl rfl

/-- A write of KEY or IV sets its flag; no other register write changes either flag. -/
theorem loadFlagsKept_writeReg (r : RegName) (w : Word64) (s : State) : LoadFlagsKept s (writeReg r w s) := by
  cases r with
  | key => exact loadFlagsKept_acceptWhenIdle (loadFlagsKept_loadKey w s)
  | iv => exact loadFlagsKept_acceptWhenIdle (loadFlagsKept_loadIv w s)
  | cmd | din | msgLen => exact loadFlagsKept_acceptWhenIdle (loadFlagsKept_of_eq rfl rfl)
  | id | ctrl | status | dout | rk => exact loadFlagsKept_of_eq rfl rfl

/-! ## The turns of the core and of the host -/

/-- Every command, whether it succeeds or takes an error, leaves KEYV and IVV (R153, R156). -/
theorem exec_loadFlags {i : Instr} {s t : State} (h : exec i s = .next t) : t.keyv = s.keyv ∧ t.ivv = s.ivv := by
  rcases exec_cases h with ⟨e, -, rfl⟩ | ⟨-, rfl⟩
  · exact ⟨rfl, rfl⟩
  · exact ⟨rfl, rfl⟩

theorem coreTurn_loadFlags {s t : State} (h : coreTurn s = .next t) : t.keyv = s.keyv ∧ t.ivv = s.ivv := by
  rcases coreTurn_cases h with ⟨-, rfl⟩ | ⟨op, i, -, -, hexec⟩ | ⟨op, b, -, -, rfl⟩
  · exact ⟨rfl, rfl⟩
  · exact exec_loadFlags hexec
  · exact ⟨rfl, rfl⟩

theorem loadFlagsKept_of_coreTurn {s t : State} (h : coreTurn s = .next t) : LoadFlagsKept s t := by
  obtain ⟨hk, hv⟩ := coreTurn_loadFlags h
  exact loadFlagsKept_of_eq hk hv

theorem loadFlagsKept_of_hostTurn {x : BusTxn} {s t : State} (h : hostTurn x s = .next t) : LoadFlagsKept s t := by
  rcases hostTurn_cases h with ⟨-, v, rfl⟩ | ⟨-, -, rfl⟩ | ⟨-, r, rfl⟩ | ⟨-, a, -, -, rfl⟩ | ⟨-, rfl⟩
  · exact loadFlagsKept_of_eq rfl rfl
  · exact loadFlagsKept_of_eq rfl rfl
  · exact loadFlagsKept_writeReg r x.wdata s
  · exact loadFlagsKept_acceptWhenIdle (write := memWrite a _) (loadFlagsKept_of_eq rfl rfl)
  · exact loadFlagsKept_of_eq rfl rfl

/-! ## The obligation -/

/-- Settles O24: completions leave both flags, host writes can only set them, and the reset turn is excluded. -/
theorem onlyResetClearsKeyvAndIvv : Obligations.OnlyResetClearsKeyvAndIvv := by
  intro s t hstep hreset
  rcases step_cases hstep with ⟨-, hcore⟩ | ⟨rest, -, hcore⟩ | ⟨x, rest, -, hhost⟩ | ⟨rest, hagenda, -⟩
  · exact loadFlagsKept_of_coreTurn hcore
  · exact loadFlagsKept_of_setAgenda (loadFlagsKept_of_coreTurn hcore)
  · exact loadFlagsKept_of_setAgenda (loadFlagsKept_of_hostTurn hhost)
  · simp [hagenda] at hreset

end Sys2Proof.Machine
end

section
/-! PROOFS. The family other: what the commands' checks give and what their writes are (R155, R156, R220, R280, R281, R311),
and from these the result, the error and the frame of each command. -/

namespace Sys2Proof.Machine

/-! ## The checks of R155, in their order -/

/-- A check that fails gives its error, whatever the checks after it say. -/
theorem firstFailure_cons_of_fail {c : Check} {s : State} (h : checkPasses c s = false) (cs : List Check) :
    firstFailure (c :: cs) s = some (checkError c) := by
  simp [firstFailure, h]

/-- Every command but NOP checks KEYV first. -/
theorem checksOf_keyLoaded_first {i : Instr} (h : i ≠ .nop) : ∃ cs, checksOf i = .keyLoaded :: cs := by
  cases i with
  | nop => exact absurd rfl h
  | keysched | blkEnc | blkDec | msgEncEcb | msgDecEcb | msgEncCbc | msgDecCbc => exact ⟨_, rfl⟩

theorem firstFailure_of_key_missing {i : Instr} {s : State} (h : i ≠ .nop) (hk : s.keyv = false) :
    firstFailure (checksOf i) s = some .keyMissing := by
  obtain ⟨cs, hcs⟩ := checksOf_keyLoaded_first h
  rw [hcs]
  exact firstFailure_cons_of_fail (c := .keyLoaded) hk cs

/-- The CBC commands check IVV after KEYV. -/
theorem firstFailure_of_iv_missing {i : Instr} {s : State} (h : i = .msgEncCbc ∨ i = .msgDecCbc) (hk : s.keyv = true)
    (hv : s.ivv = false) : firstFailure (checksOf i) s = some .ivMissing := by
  have hcs : ∃ cs, checksOf i = .keyLoaded :: .ivLoaded :: cs := by
    obtain rfl | rfl := h
    · exact ⟨_, rfl⟩
    · exact ⟨_, rfl⟩
  obtain ⟨cs, hcs⟩ := hcs
  rw [hcs, firstFailure_cons_of_pass (c := .keyLoaded) hk]
  exact firstFailure_cons_of_fail (c := .ivLoaded) hv cs

/-- A command that passes its checks had a key, NOP apart. -/
theorem keyv_of_pass {i : Instr} {s : State} (h : i ≠ .nop) (hpass : firstFailure (checksOf i) s = none) :
    s.keyv = true := by
  by_contra hk
  rw [firstFailure_of_key_missing h (by simpa using hk)] at hpass
  cases hpass

/-- The length check of the two encryptions (R306). -/
theorem firstFailure_encryption {i : Instr} {s : State} (hi : i = .msgEncEcb ∨ i = .msgEncCbc) (hk : s.keyv = true)
    (hv : i = .msgEncCbc → s.ivv = true) : firstFailure (checksOf i) s = firstFailure [.encryptLength] s := by
  obtain rfl | rfl := hi
  · exact firstFailure_cons_of_pass (c := .keyLoaded) hk _
  · exact firstFailure_of_keyLoaded_of_ivLoaded (.inr rfl) hk (hv rfl)

/-- The length check of the two decryptions (R306). -/
theorem firstFailure_decryption {i : Instr} {s : State} (hi : i = .msgDecEcb ∨ i = .msgDecCbc) (hk : s.keyv = true)
    (hv : i = .msgDecCbc → s.ivv = true) : firstFailure (checksOf i) s = firstFailure [.decryptLength] s := by
  obtain rfl | rfl := hi
  · exact firstFailure_cons_of_pass (c := .keyLoaded) hk _
  · exact firstFailure_of_keyLoaded_of_ivLoaded (.inr rfl) hk (hv rfl)

theorem firstFailure_encryptLength_eq_none_iff (s : State) :
    firstFailure [.encryptLength] s = none ↔ s.msgLen.toNat ≤ Config.msgbufBytes := by
  simp [firstFailure_eq_none_iff, checkPasses]

theorem firstFailure_decryptLength_eq_none_iff (s : State) :
    firstFailure [.decryptLength] s = none ↔ s.msgLen.toNat % 8 = 0 ∧ s.msgLen.toNat ≤ Config.msgbufBytes := by
  simp [firstFailure_eq_none_iff, checkPasses]

/-- A command that passes its checks succeeds with its writes. -/
theorem exec_of_pass {i : Instr} {s : State} (h : firstFailure (checksOf i) s = none) :
    exec i s = .next (succeed (writesOf i s) s) := by
  rw [exec_eq, completeChecked_of_pass ((firstFailure_eq_none_iff _ _).1 h)]

/-- A command whose checks give an error writes ERR, DONE and pending alone (R156). -/
theorem exec_of_fail {i : Instr} {s : State} {e : ErrCode} (h : firstFailure (checksOf i) s = some e) :
    exec i s = .next { s with err := errValue e, done := true, pending := none } :=
  (exec_eq_raiseError_iff i e s).2 h

/-- Past the checks before it, a length check that fails gives ERR = 3. -/
theorem exec_of_bad_length {i : Instr} {c : Check} {s : State}
    (hi : checksOf i = [.keyLoaded, c] ∨ checksOf i = [.keyLoaded, .ivLoaded, c]) (hk : s.keyv = true)
    (hv : s.ivv = true ∨ checksOf i = [.keyLoaded, c]) (hc : firstFailure [c] s = some .length) :
    exec i s = .next { s with err := 3, done := true, pending := none } := by
  refine exec_of_fail (e := .length) ?_
  obtain hv | hi := hv
  · rwa [firstFailure_of_keyLoaded_of_ivLoaded hi hk hv]
  · rw [hi]
    exact (firstFailure_cons_of_pass (c := .keyLoaded) hk _).trans hc

/-! ## What the commands write (30_encoding.md R123) -/

/-- Every command but NOP writes the schedule of KEY into the bank. -/
theorem writesOf_rk {i : Instr} (h : i ≠ .nop) (s : State) :
    (writesOf i s).rk = some (keyBank (deriveRoundKeys s.key)) := by
  cases i with
  | nop => exact absurd rfl h
  | keysched | blkEnc | blkDec | msgEncEcb | msgDecEcb | msgEncCbc | msgDecCbc => rfl

/-- Only the BLK commands write DOUT. -/
theorem writesOf_dout {i : Instr} (he : i ≠ .blkEnc) (hd : i ≠ .blkDec) (s : State) : (writesOf i s).dout = none := by
  cases i with
  | blkEnc => exact absurd rfl he
  | blkDec => exact absurd rfl hd
  | nop | keysched | msgEncEcb | msgDecEcb | msgEncCbc | msgDecCbc => rfl

/-- The output of a MSG encryption; for every other command nothing. -/
def ciphertextOf : Instr → State → List Byte
  | .msgEncEcb, s => ecbEnc (deriveRoundKeys s.key) (inputMessage s)
  | .msgEncCbc, s => cbcEnc (deriveRoundKeys s.key) (ivBytes s) (inputMessage s)
  | _, _ => []

/-- The data a MSG decryption gives before unpadding; for every other command nothing. -/
def decryptedOf : Instr → State → List Byte
  | .msgDecEcb, s => ecbDecData (deriveRoundKeys s.key) (inputMessage s)
  | .msgDecCbc, s => cbcDecData (deriveRoundKeys s.key) (ivBytes s) (inputMessage s)
  | _, _ => []

theorem writesOf_encryption {i : Instr} (h : i = .msgEncEcb ∨ i = .msgEncCbc) (s : State) :
    writesOf i s = encryptionWrites (ciphertextOf i s) s := by
  obtain rfl | rfl := h
  · rfl
  · rfl

theorem writesOf_decryption {i : Instr} (h : i = .msgDecEcb ∨ i = .msgDecCbc) (s : State) :
    writesOf i s = decryptionWrites (decryptedOf i s) s := by
  obtain rfl | rfl := h
  · rfl
  · rfl

theorem length_ciphertextOf {i : Instr} (h : i = .msgEncEcb ∨ i = .msgEncCbc) (s : State) :
    (ciphertextOf i s).length = (pad (inputMessage s)).length := by
  obtain rfl | rfl := h
  · exact length_ecbEnc _ _
  · exact length_cbcEnc _ _ _

theorem length_decryptedOf {i : Instr} (h : i = .msgDecEcb ∨ i = .msgDecCbc) {s : State}
    (ha : s.msgLen.toNat % 8 = 0) : (decryptedOf i s).length = s.msgLen.toNat := by
  have hm : (inputMessage s).length % 8 = 0 := by rwa [length_inputMessage]
  obtain rfl | rfl := h
  · exact (length_ecbDecData _ _ hm).trans (length_inputMessage s)
  · exact (length_cbcDecData _ _ _ (length_ivBytes s) hm).trans (length_inputMessage s)

/-- A command is NOP, KEYSCHED or a BLK command, which store nothing, or a MSG command. -/
theorem writesOf_msg_cases (i : Instr) :
    (i ∈ [Instr.nop, .keysched, .blkEnc, .blkDec] ∧ ∀ s, (writesOf i s).msg = none) ∨
      (i = .msgEncEcb ∨ i = .msgEncCbc) ∨ (i = .msgDecEcb ∨ i = .msgDecCbc) := by
  cases i with
  | nop | keysched | blkEnc | blkDec => exact .inl ⟨by decide, fun _ => rfl⟩
  | msgEncEcb | msgEncCbc => exact .inr (.inl (by decide))
  | msgDecEcb | msgDecCbc => exact .inr (.inr (by decide))

/-- What a MSG command that passes its checks stores: the ciphertext of the padded message, or as much data as MSG_LEN
says, and never more than MSGBUF holds (R303, R306, R311). -/
theorem writesOf_msg_of_pass {i : Instr} {s : State} {m : List Byte} {n : Nat}
    (hpass : firstFailure (checksOf i) s = none) (hm : (writesOf i s).msg = some (m, n)) :
    ((i = .msgEncEcb ∨ i = .msgEncCbc) ∧ m.length = (pad (inputMessage s)).length ∨
      (i = .msgDecEcb ∨ i = .msgDecCbc) ∧ m.length = s.msgLen.toNat) ∧ m.length ≤ Config.msgbufBytes := by
  have hiv : checksOf i = [.keyLoaded, .ivLoaded, .encryptLength] ∨ checksOf i = [.keyLoaded, .ivLoaded, .decryptLength] →
      s.ivv = true := by
    intro h
    refine (firstFailure_eq_none_iff _ _).1 hpass .ivLoaded ?_
    obtain h | h := h <;> simp [h]
  obtain ⟨-, hnone⟩ | hi | hi := writesOf_msg_cases i
  · rw [hnone s] at hm
    cases hm
  · have hk : s.keyv = true := keyv_of_pass (by rintro rfl; simp at hi) hpass
    rw [firstFailure_encryption hi hk (by rintro rfl; exact hiv (.inl rfl)),
      firstFailure_encryptLength_eq_none_iff] at hpass
    rw [writesOf_encryption hi] at hm
    cases hm
    have hlen := length_ciphertextOf hi s
    have hfit : (pad (inputMessage s)).length ≤ Config.msgbufBytes := length_pad_le_msgbufBytes (by simpa using hpass)
    exact ⟨.inl ⟨hi, hlen⟩, hlen.trans_le hfit⟩
  · have hk : s.keyv = true := keyv_of_pass (by rintro rfl; simp at hi) hpass
    rw [firstFailure_decryption hi hk (by rintro rfl; exact hiv (.inr rfl)),
      firstFailure_decryptLength_eq_none_iff] at hpass
    rw [writesOf_decryption hi] at hm
    cases hm
    have hlen := length_decryptedOf hi hpass.1
    exact ⟨.inr ⟨hi, hlen⟩, hlen.trans_le hpass.2⟩

end Sys2Proof.Machine
end

section
/-! PROOFS. The family other: the results, the errors and the frames of the commands (O12 to O21). -/

namespace Sys2Proof.Machine

/-! ## KEYSCHED and the BLK commands -/

/-- The bank that a command other than NOP writes is the schedule of KEY (R214, R220). -/
theorem keyBank_deriveRoundKeys (k : Word64) : (keyBank (deriveRoundKeys k)).toList = deriveRoundKeys k :=
  keyBank_toList _ (length_deriveRoundKeys k)

/-- The commands whose only check is KEYV. -/
theorem exec_of_keyv {i : Instr} {s : State} (hi : checksOf i = [.keyLoaded]) (h : s.keyv = true) :
    exec i s = .next (succeed (writesOf i s) s) := by
  refine exec_of_pass ?_
  rw [hi]
  exact firstFailure_cons_of_pass (c := .keyLoaded) h []

/-- A success whose only write is the bank. -/
theorem succeed_bank (bank : Vector RoundKey 16) (s : State) :
    succeed { rk := some bank } s = { s with rk := bank, err := 0, done := true, pending := none } := rfl

/-- Settles O12: past its KEYV check KEYSCHED writes the bank alone. -/
theorem keyschedFillsTheBank : Obligations.KeyschedFillsTheBank := by
  intro s h
  refine ⟨keyBank (deriveRoundKeys s.key), ?_, keyBank_deriveRoundKeys s.key⟩
  rw [exec_keysched_of_keyv h, keyschedWrites, succeed_bank]

/-- Settles O13: past its KEYV check BLK_ENC writes the bank and DOUT. -/
theorem blkEncEnciphersDin : Obligations.BlkEncEnciphersDin :=
  fun s h => ⟨keyBank (deriveRoundKeys s.key), exec_of_keyv (i := .blkEnc) rfl h, keyBank_deriveRoundKeys s.key⟩

/-- Settles O14: past its KEYV check BLK_DEC writes the bank and DOUT. -/
theorem blkDecDeciphersDin : Obligations.BlkDecDeciphersDin :=
  fun s h => ⟨keyBank (deriveRoundKeys s.key), exec_of_keyv (i := .blkDec) rfl h, keyBank_deriveRoundKeys s.key⟩

/-! ## The MSG commands -/

/-- What a MSG command that succeeds leaves: the stored bytes `m`, the new MSG_LEN `n`, the schedule in RK (R311). -/
def MessageStored (m : List Byte) (n : Nat) (s t : State) : Prop :=
  (∀ a, msgByte t a = if a < m.length then m.getD a 0 else msgByte s a) ∧ t.msgLen.toNat = n ∧
    t.rk.toList = deriveRoundKeys s.key ∧
    t = { s with msgbuf := t.msgbuf, msgLen := t.msgLen, rk := t.rk, err := 0, done := true, pending := none }

theorem messageStored_succeed {w : Writes} {m : List Byte} {n : Nat} (s : State)
    (hw : w = { rk := some (keyBank (deriveRoundKeys s.key)), msg := some (m, n) }) (hn : n ≤ Config.msgbufBytes) :
    MessageStored m n s (succeed w s) := by
  subst hw
  have hn64 : n < 2 ^ 64 := by have := Config.msgbufBytes_le; omega
  refine ⟨msgByte_succeed s _ m n rfl, ?_, keyBank_deriveRoundKeys s.key, rfl⟩
  exact (BitVec.toNat_ofNat n 64).trans (Nat.mod_eq_of_lt hn64)

/-- R320, R322, R311: an encryption of a message that fits the buffer. -/
theorem exec_encryption {i : Instr} {s : State} (hi : i = .msgEncEcb ∨ i = .msgEncCbc) (hk : s.keyv = true)
    (hv : i = .msgEncCbc → s.ivv = true) (hlen : s.msgLen.toNat ≤ Config.msgbufBytes) :
    ∃ t, exec i s = .next t ∧ MessageStored (ciphertextOf i s) (pad (inputMessage s)).length s t := by
  have hpass : firstFailure (checksOf i) s = none := by
    rwa [firstFailure_encryption hi hk hv, firstFailure_encryptLength_eq_none_iff]
  have hfit : (pad (inputMessage s)).length ≤ Config.msgbufBytes := length_pad_le_msgbufBytes (by simpa using hlen)
  refine ⟨_, exec_of_pass hpass, messageStored_succeed s ?_ hfit⟩
  rw [writesOf_encryption hi, ← length_ciphertextOf hi]
  rfl

theorem length_unpad_le (d : List Byte) : (unpad d).length ≤ d.length := by
  unfold unpad
  split
  · exact le_rfl
  · split_ifs
    · exact List.length_take_le' _ _
    · exact le_rfl

/-- R321, R323, R311: a decryption of whole blocks that fit the buffer. -/
theorem exec_decryption {i : Instr} {s : State} (hi : i = .msgDecEcb ∨ i = .msgDecCbc) (hk : s.keyv = true)
    (hv : i = .msgDecCbc → s.ivv = true) (hlen : s.msgLen.toNat ≤ Config.msgbufBytes) (ha : s.msgLen.toNat % 8 = 0) :
    ∃ t, exec i s = .next t ∧ MessageStored (decryptedOf i s) (unpad (decryptedOf i s)).length s t := by
  have hpass : firstFailure (checksOf i) s = none := by
    rw [firstFailure_decryption hi hk hv, firstFailure_decryptLength_eq_none_iff]
    exact ⟨ha, hlen⟩
  have hfit : (unpad (decryptedOf i s)).length ≤ Config.msgbufBytes :=
    calc (unpad (decryptedOf i s)).length
      _ ≤ (decryptedOf i s).length := length_unpad_le _
      _ = s.msgLen.toNat := length_decryptedOf hi ha
      _ ≤ Config.msgbufBytes := hlen
  refine ⟨_, exec_of_pass hpass, messageStored_succeed s ?_ hfit⟩
  rw [writesOf_decryption hi]
  rfl

/-- Settles O15: the ciphertext is as long as the padded message. -/
theorem msgEncEcbEnciphersTheBuffer : Obligations.MsgEncEcbEnciphersTheBuffer := by
  intro s hk hlen
  obtain ⟨t, hexec, hstored⟩ := exec_encryption (.inl rfl) hk (by simp) hlen
  rw [MessageStored, length_ciphertextOf (.inl rfl)] at hstored
  exact ⟨t, hexec, hstored⟩

/-- Settles O17: the ciphertext is as long as the padded message. -/
theorem msgEncCbcEnciphersTheBuffer : Obligations.MsgEncCbcEnciphersTheBuffer := by
  intro s hk hv hlen
  obtain ⟨t, hexec, hstored⟩ := exec_encryption (.inr rfl) hk (fun _ => hv) hlen
  rw [MessageStored, length_ciphertextOf (.inr rfl)] at hstored
  exact ⟨t, hexec, hstored⟩

/-- Settles O16: the data before unpadding is as long as the ciphertext. -/
theorem msgDecEcbDeciphersTheBuffer : Obligations.MsgDecEcbDeciphersTheBuffer := by
  intro s hk hlen ha
  obtain ⟨t, hexec, hstored⟩ := exec_decryption (.inl rfl) hk (by simp) hlen ha
  rw [MessageStored, length_decryptedOf (.inl rfl) ha] at hstored
  exact ⟨t, hexec, hstored⟩

/-- Settles O18: the data before unpadding is as long as the ciphertext. -/
theorem msgDecCbcDeciphersTheBuffer : Obligations.MsgDecCbcDeciphersTheBuffer := by
  intro s hk hv hlen ha
  obtain ⟨t, hexec, hstored⟩ := exec_decryption (.inr rfl) hk (fun _ => hv) hlen ha
  rw [MessageStored, length_decryptedOf (.inr rfl) ha] at hstored
  exact ⟨t, hexec, hstored⟩

/-! ## The order of the checks -/

/-- Settles O19: the first check that fails decides, and a failed completion writes ERR, DONE and pending alone. -/
theorem firstFailingCheckGivesTheError : Obligations.FirstFailingCheckGivesTheError := by
  intro s
  refine ⟨fun op b => coreStep_of_illegal, fun i hi hk => ?key, fun i hi hk hv => ?iv, fun hk hlong => ?long,
    fun hk hpart => ?part⟩
  case key => exact exec_of_fail (firstFailure_of_key_missing hi hk)
  case iv => exact exec_of_fail (firstFailure_of_iv_missing hi hk hv)
  case long =>
    have henc := (firstFailure_encryptLength s).2 hlong
    have hdec := (firstFailure_decryptLength s).2 (.inl hlong)
    exact ⟨exec_of_bad_length (.inl rfl) hk (.inr rfl) henc, exec_of_bad_length (.inl rfl) hk (.inr rfl) hdec,
      fun hv => ⟨exec_of_bad_length (.inr rfl) hk (.inl hv) henc, exec_of_bad_length (.inr rfl) hk (.inl hv) hdec⟩⟩
  case part =>
    have hdec := (firstFailure_decryptLength s).2 (.inr hpart)
    exact ⟨exec_of_bad_length (.inl rfl) hk (.inr rfl) hdec,
      fun hv => exec_of_bad_length (.inr rfl) hk (.inl hv) hdec⟩

/-! ## The frames -/

/-- A command that stores nothing leaves MSG_LEN and every byte of MSGBUF. -/
theorem succeed_of_no_msg {w : Writes} (hw : w.msg = none) (s : State) :
    (succeed w s).msgLen = s.msgLen ∧ ∀ a, msgByte (succeed w s) a = msgByte s a := by
  refine ⟨by simp [succeed, hw], msgByte_congr ?_ rfl⟩
  simp [succeed, hw]

/-- Settles O20: an error writes none of these, and the writes of a success have none of them but RK and DOUT. -/
theorem frameOfPlainAndBlockCommands : Obligations.FrameOfPlainAndBlockCommands := by
  intro i s t hi hexec
  rcases exec_cases hexec with ⟨e, -, rfl⟩ | ⟨-, rfl⟩
  · exact ⟨rfl, rfl, rfl, rfl, rfl, rfl, rfl, rfl, fun a => msgByte_congr rfl rfl a, fun _ => rfl, fun _ => rfl⟩
  · have hmsg : (writesOf i s).msg = none := by
      obtain ⟨-, hnone⟩ | (rfl | rfl) | rfl | rfl := writesOf_msg_cases i
      · exact hnone s
      all_goals simp at hi
    obtain ⟨hlen, hbytes⟩ := succeed_of_no_msg hmsg s
    refine ⟨rfl, rfl, rfl, rfl, rfl, rfl, rfl, hlen, hbytes, ?rk, ?dout⟩
    case rk =>
      rintro rfl
      rfl
    case dout =>
      intro hi
      have hdout : (writesOf i s).dout = none := writesOf_dout (by rintro rfl; simp at hi) (by rintro rfl; simp at hi) s
      simp [succeed, hdout]

/-- Settles O21: an error stores nothing, and a success stores from byte 0 the bytes `writesOf_msg_of_pass` counts. -/
theorem frameOfMessageCommands : Obligations.FrameOfMessageCommands := by
  intro i s t hi hexec
  rcases exec_cases hexec with ⟨e, -, rfl⟩ | ⟨hpass, rfl⟩
  · have hbytes : ∀ a, msgByte (raiseError e s) a = msgByte s a := msgByte_congr rfl rfl
    exact ⟨rfl, rfl, rfl, rfl, rfl, rfl, rfl, rfl, fun a _ _ => hbytes a, fun _ => ⟨hbytes, rfl, rfl⟩⟩
  · have hdout : (writesOf i s).dout = none := writesOf_dout (by rintro rfl; simp at hi) (by rintro rfl; simp at hi) s
    refine ⟨rfl, rfl, rfl, rfl, rfl, rfl, rfl, by simp [succeed, hdout], fun a henc hdec => ?outside,
      fun herr => absurd rfl herr⟩
    cases hm : (writesOf i s).msg with
    | none => exact (succeed_of_no_msg hm s).2 a
    | some mn =>
      obtain ⟨m, n⟩ := mn
      have houtside : ¬a < m.length := by
        rcases (writesOf_msg_of_pass hpass hm).1 with ⟨hi, hlen⟩ | ⟨hi, hlen⟩
        · have := henc hi; omega
        · have := hdec hi; omega
      rw [msgByte_succeed s _ m n hm, if_neg houtside]

end Sys2Proof.Machine
end

section
/-! PROOFS. The family other: what an answered host access leaves, said once (20_memory.md R86 to R89, R95, R96), and the
invariant of Safety.lean (O2, O3). -/

namespace Sys2Proof.Machine

/-! ## Host accesses (R86, R87, R89, R95, R96) -/

/-- What an answered access leaves of a state, the port's answer apart: one case for each thing it may do. -/
inductive HostEffect (x : BusTxn) (s : State) : State → Prop
  | nothing : HostEffect x s s
  | draw (hread : x.kind = .read) (hbusy : s.pending ≠ none) : HostEffect x s (useDraw s)
  | ctrl (hx : x = hostTransaction (.wr .ctrl x.wdata)) : HostEffect x s (writeCtrl x.wdata s)
  | status (hx : x = hostTransaction (.wr .status x.wdata)) : HostEffect x s (writeStatus x.wdata s)
  | dropped (hwrite : x.kind = .write) (hbusy : s.pending ≠ none) : HostEffect x s (setOverrun s)
  | issued (hidle : s.pending = none) (hx : x = hostTransaction (.wr .cmd x.wdata)) : HostEffect x s (issue x.wdata s)
  | key (hidle : s.pending = none) (hx : x = hostTransaction (.wr .key x.wdata)) : HostEffect x s (loadKey x.wdata s)
  | iv (hidle : s.pending = none) (hx : x = hostTransaction (.wr .iv x.wdata)) : HostEffect x s (loadIv x.wdata s)
  | din (hidle : s.pending = none) (hx : x = hostTransaction (.wr .din x.wdata)) : HostEffect x s (loadDin x.wdata s)
  | msgLen (hidle : s.pending = none) : HostEffect x s (loadMsgLen x.wdata s)
  | buffer (a : Nat) (hidle : s.pending = none) (ha : a % 8 = 0) (hin : a < Config.msgbufBytes) :
      HostEffect x s (memWrite a (bitsToBytes x.wdata) s)

/-- A write guarded by BUSY takes its effect or is dropped. -/
theorem hostEffect_acceptWhenIdle {x : BusTxn} {s : State} {write : State → State} (hk : x.kind = .write)
    (h : s.pending = none → HostEffect x s (write s)) : HostEffect x s (acceptWhenIdle write s) := by
  by_cases hp : s.pending = none
  · rw [acceptWhenIdle_of_idle hp]
    exact h hp
  · rw [acceptWhenIdle_of_busy hp]
    exact .dropped hk hp

theorem hostEffect_writeReg {x : BusTxn} {r : RegName} (s : State) (hk : x.kind = .write)
    (hx : x = hostTransaction (.wr r x.wdata)) : HostEffect x s (writeReg r x.wdata s) := by
  cases r with
  | ctrl => exact .ctrl hx
  | status => exact .status hx
  | cmd => exact hostEffect_acceptWhenIdle hk fun hp => .issued hp hx
  | key => exact hostEffect_acceptWhenIdle hk fun hp => .key hp hx
  | iv => exact hostEffect_acceptWhenIdle hk fun hp => .iv hp hx
  | din => exact hostEffect_acceptWhenIdle hk fun hp => .din hp hx
  | msgLen => exact hostEffect_acceptWhenIdle hk fun hp => .msgLen hp
  | id | dout | rk => exact .nothing

/-- Everything an answered host access can do; a write is answered with okay. -/
theorem hostTurn_effect {x : BusTxn} {s t : State} (h : hostTurn x s = .next t) :
    ∃ a u, t = setAnswer a u ∧ HostEffect x s u ∧ (x.kind = .write → a = .okay) := by
  cases hk : x.kind with
  | read =>
    rcases hostTurn_cases h with ⟨-, v, rfl⟩ | ⟨-, hp, rfl⟩ | ⟨hw, -⟩ | ⟨hw, -⟩ | ⟨hw, -⟩
    · exact ⟨_, s, rfl, .nothing, nofun⟩
    · exact ⟨_, useDraw s, rfl, .draw hk hp, nofun⟩
    all_goals simp [hk] at hw
  | write =>
    rcases hostTurn_write hk h with ⟨r, hx, rfl⟩ | ⟨a, ha, hin, rfl⟩ | rfl
    · exact ⟨.okay, _, rfl, hostEffect_writeReg s hk hx, fun _ => rfl⟩
    · exact ⟨.okay, _, rfl, hostEffect_acceptWhenIdle hk fun hp => .buffer a hp ha hin, fun _ => rfl⟩
    · exact ⟨.okay, s, rfl, .nothing, fun _ => rfl⟩

/-! ## The invariant -/

/-- Settles O2: every field of the reset state is a literal. -/
theorem resetMeetsTheInvariant : Obligations.ResetMeetsTheInvariant where
  busyClear h := absurd rfl h
  errNamed := Nat.zero_le 4
  keyUnset _ := ⟨rfl, rfl, rfl⟩
  ivUnset _ := rfl
  memoryWf := reset_memory_wf
  memoryInside _ h := absurd h List.not_mem_nil

/-- The invariant speaks of the spec's fields only. -/
theorem stateInv_setAgenda {s : State} (h : StateInv s) (ts : List Turn) : StateInv (setAgenda ts s) :=
  ⟨h.busyClear, h.errNamed, h.keyUnset, h.ivUnset, h.memoryWf, h.memoryInside⟩

theorem stateInv_setAnswer {s : State} (h : StateInv s) (a : Answer) : StateInv (setAnswer a s) :=
  ⟨h.busyClear, h.errNamed, h.keyUnset, h.ivUnset, h.memoryWf, h.memoryInside⟩

theorem stateInv_resetCore (s : State) : StateInv (resetCore s) :=
  have h := resetMeetsTheInvariant
  ⟨h.busyClear, h.errNamed, h.keyUnset, h.ivUnset, h.memoryWf, h.memoryInside⟩

/-- Storing bytes inside MSGBUF keeps what the invariant says of the memory. -/
theorem memory_putAll_inside {m : Memory} {a : Nat} {bs : List Byte} (hm : ∀ c ∈ m, c.1 < Config.msgbufBytes)
    (hin : a + bs.length ≤ Config.msgbufBytes) : ∀ c ∈ Memory.putAll m a bs, c.1 < Config.msgbufBytes := by
  intro c hc
  obtain ⟨-, hlt⟩ | hold := Memory.mem_putAll hc
  · omega
  · exact hm c hold

/-- Every effect of a host access keeps the invariant: only a STATUS write touches DONE, only an issue sets `pending`, and
a buffer word lies in MSGBUF. -/
theorem stateInv_of_hostEffect {x : BusTxn} {s t : State} (h : StateInv s) (he : HostEffect x s t) : StateInv t := by
  obtain ⟨hbusy, herr, hkey, hiv, hwf, hinside⟩ := h
  cases he with
  | nothing | draw | ctrl | dropped | din | msgLen => exact ⟨hbusy, herr, hkey, hiv, hwf, hinside⟩
  | status =>
    refine ⟨fun hp => ?_, herr, hkey, hiv, hwf, hinside⟩
    obtain ⟨hdone, hzero⟩ := hbusy hp
    exact ⟨by simp [hdone], hzero⟩
  | issued => exact ⟨fun _ => ⟨rfl, rfl⟩, Nat.zero_le 4, hkey, hiv, hwf, hinside⟩
  | key => exact ⟨hbusy, herr, nofun, hiv, hwf, hinside⟩
  | iv => exact ⟨hbusy, herr, hkey, nofun, hwf, hinside⟩
  | buffer a hidle ha hin =>
    have hword : a + (bitsToBytes x.wdata).length ≤ Config.msgbufBytes := by
      have := Config.msgbufBytes_mod_eight
      rw [length_bitsToBytes]
      omega
    exact ⟨hbusy, herr, hkey, hiv, Memory.wf_putAll hwf a _, memory_putAll_inside hinside hword⟩

theorem stateInv_raiseError {s : State} (h : StateInv s) (e : ErrCode) : StateInv (raiseError e s) :=
  ⟨fun hp => absurd rfl hp, (errValue_pos_le e).2, h.keyUnset, h.ivUnset, h.memoryWf, h.memoryInside⟩

/-- A command that passes its checks keeps the invariant: with KEYV = 0 it is NOP, which writes nothing, and the stored
bytes fit MSGBUF. -/
theorem stateInv_succeed {i : Instr} {s : State} (h : StateInv s) (hpass : firstFailure (checksOf i) s = none) :
    StateInv (succeed (writesOf i s) s) := by
  refine ⟨fun hp => absurd rfl hp, Nat.zero_le 4, fun hk => ?keyUnset, h.ivUnset, ?memoryWf, ?memoryInside⟩
  case keyUnset =>
    have hnop : i = .nop := by
      by_contra hi
      have hkeyed : s.keyv = true := keyv_of_pass hi hpass
      have hunset : s.keyv = false := hk
      simp [hkeyed] at hunset
    subst hnop
    exact h.keyUnset hk
  case memoryWf =>
    rw [succeed, finish_msgbuf, applyWrites_msgbuf]
    split
    · exact h.memoryWf
    · exact Memory.wf_putAll h.memoryWf 0 _
  case memoryInside =>
    rw [succeed, finish_msgbuf, applyWrites_msgbuf]
    split
    next => exact h.memoryInside
    next m n hm =>
      obtain ⟨-, hfit⟩ := writesOf_msg_of_pass hpass hm
      exact memory_putAll_inside h.memoryInside (by omega)

theorem stateInv_of_exec {i : Instr} {s t : State} (h : StateInv s) (he : exec i s = .next t) : StateInv t := by
  rcases exec_cases he with ⟨e, -, rfl⟩ | ⟨hpass, rfl⟩
  · exact stateInv_raiseError h e
  · exact stateInv_succeed h hpass

theorem stateInv_of_coreTurn {s t : State} (h : StateInv s) (he : coreTurn s = .next t) : StateInv t := by
  rcases coreTurn_cases he with ⟨-, rfl⟩ | ⟨op, i, -, -, hexec⟩ | ⟨op, b, -, -, rfl⟩
  · exact h
  · exact stateInv_of_exec h hexec
  · exact stateInv_raiseError h .illegalCmd

theorem stateInv_of_hostTurn {x : BusTxn} {s t : State} (h : StateInv s) (he : hostTurn x s = .next t) : StateInv t := by
  obtain ⟨a, u, rfl, heffect, -⟩ := hostTurn_effect he
  exact stateInv_setAnswer (stateInv_of_hostEffect h heffect) a

/-- Settles O3: the turn that a step takes, of the core, the host or the reset input, keeps the invariant. -/
theorem everyStepKeepsTheInvariant : Obligations.EveryStepKeepsTheInvariant := by
  intro s t h hstep
  rcases step_cases hstep with ⟨-, hcore⟩ | ⟨rest, -, hcore⟩ | ⟨x, rest, -, hhost⟩ | ⟨rest, -, rfl⟩
  · exact stateInv_of_coreTurn h hcore
  · exact stateInv_of_coreTurn (stateInv_setAgenda h rest) hcore
  · exact stateInv_of_hostTurn (stateInv_setAgenda h rest) hhost
  · exact stateInv_resetCore _

end Sys2Proof.Machine
end

section
/-! PROOFS. The family other: what reset, the core's step and a latched word do (O4 to O6), and who may change a register
or a flag (O22, O23, O25 to O27). -/

namespace Sys2Proof.Machine

/-! ## Reset, the core's step and the latched word -/

theorem coreStep_of_idle {s : State} (h : s.pending = none) : coreStep s = .next s := by
  rw [coreStep_eq, coreTurn, h]

/-- Settles O4: the reset turn is `resetCore`, which leaves no pending command for the core's step. -/
theorem resetAbandonsThePendingCommand : Obligations.ResetAbandonsThePendingCommand :=
  fun s => ⟨resetCore s, rfl, rfl, Nat.succ_ne_self s.epoch, rfl, rfl, rfl, fun _ => rfl, coreStep_of_idle rfl⟩

/-- With an empty agenda the core moves (log 1). -/
theorem step_of_empty_agenda {s : State} (h : s.agenda = []) : step s = coreStep s := by
  rw [step, nextTurn, h, coreStep_eq]

/-- A core turn at the head of the agenda is the core's step of the state without that turn. -/
theorem step_of_core_head {s : State} {rest : List Turn} (h : s.agenda = .core :: rest) :
    step s = coreStep (setAgenda rest s) := by
  rw [step, nextTurn, h, coreStep_eq]
  rfl

/-- Settles O5: the step is the core's in each of the two forms, and the core's step is `exec` of what `decode` reads. -/
theorem coreStepRunsTheDecodedCommand : Obligations.CoreStepRunsTheDecodedCommand := by
  intro s
  refine ⟨fun op i hp hd => ⟨fun hempty => ?empty, fun rest hcore => ?head, coreStep_of_legal hp hd⟩,
    fun op b => coreStep_of_illegal, fun hidle => ⟨coreStep_of_idle hidle, fun hempty => ?idle⟩⟩
  case empty => rw [step_of_empty_agenda hempty, coreStep_of_legal hp hd]
  case head => exact (step_of_core_head hcore).trans (coreStep_of_legal hp hd)
  case idle => rw [step_of_empty_agenda hempty, coreStep_of_idle hidle]

/-- What a table word decodes to is what its command byte decodes to. -/
theorem decode_of_decodeTableWord {nbits w : Nat} {i : Instr} (h : decodeTableWord nbits w = some i) :
    decode (commandByte (BitVec.ofNat 64 (w % 2 ^ nbits))) = .legal i := by
  unfold decodeTableWord at h
  split at h
  · injection h with h
    subst h
    assumption
  · cases h

/-- The byte that a latched word leaves pending. -/
theorem commandByte_ofNat (n : Nat) : commandByte (BitVec.ofNat 64 n) = BitVec.ofNat 8 n :=
  BitVec.setWidth_ofNat_of_le (by decide) n

/-- Settles O6: the latched byte decodes as the table word does, and the agenda is empty. -/
theorem latchedWordRunsAsTheNextStep : Obligations.LatchedWordRunsAsTheNextStep := by
  intro s nbits w i hw
  refine ⟨?runs, ?latched⟩
  case runs =>
    rw [step_of_empty_agenda rfl]
    exact coreStep_of_legal rfl (decode_of_decodeTableWord hw)
  case latched =>
    rw [← commandByte_ofNat]
    rfl

/-! ## A step by the agent that takes it -/

/-- The turn that a step takes is the core's, as the head of the agenda or because there is none. -/
def CoreMoves (s : State) : Prop := s.agenda.head? = some .core ∨ s.agenda = []

/-- A step that is no reset turn: the core's, or an answered host access of the head of the agenda, each from the state
without that turn. -/
theorem step_agents {s t : State} (h : step s = .next t) :
    s.agenda.head? = some .reset ∨ (CoreMoves s ∧ coreTurn (setAgenda s.agenda.tail s) = .next t) ∨
      ∃ x, s.agenda.head? = some (.host x) ∧ ∃ a u, t = setAnswer a u ∧
        HostEffect x (setAgenda s.agenda.tail s) u ∧ (x.kind = .write → a = .okay) := by
  rcases step_cases h with ⟨hagenda, hcore⟩ | ⟨rest, hagenda, hcore⟩ | ⟨x, rest, hagenda, hhost⟩ | ⟨rest, hagenda, -⟩
  · refine .inr (.inl ⟨.inr hagenda, ?_⟩)
    rw [hagenda, List.tail_nil, ← hagenda]
    exact hcore
  · refine .inr (.inl ⟨.inl (by simp [hagenda]), ?_⟩)
    rwa [hagenda]
  · refine .inr (.inr ⟨x, by simp [hagenda], ?_⟩)
    rw [hagenda]
    exact hostTurn_effect hhost
  · exact .inl (by simp [hagenda])

/-! ## RK and DOUT (R44, R46) -/

/-- The core's step leaves a state as it is, takes an error, or completes with success the command that the pending byte
encodes. -/
theorem coreTurn_results {s t : State} (h : coreTurn s = .next t) :
    t = s ∨ (∃ e, t = raiseError e s) ∨
      ∃ i, s.pending = some (encode i) ∧ firstFailure (checksOf i) s = none ∧ t = succeed (writesOf i s) s := by
  rcases coreTurn_cases h with ⟨-, rfl⟩ | ⟨op, i, hp, hd, hexec⟩ | ⟨op, b, -, -, rfl⟩
  · exact .inl rfl
  · rcases exec_cases hexec with ⟨e, -, rfl⟩ | ⟨hpass, rfl⟩
    · exact .inr (.inl ⟨e, rfl⟩)
    · have hop : op = encode i := by
        obtain ⟨i', hop, hd'⟩ | hillegal := decode_cases op
        · cases hd.symm.trans hd'
          exact hop
        · cases hd.symm.trans hillegal
      exact .inr (.inr ⟨i, hop ▸ hp, hpass, rfl⟩)
  · exact .inr (.inl ⟨.illegalCmd, rfl⟩)

/-- No host access changes RK or DOUT. -/
theorem hostEffect_results {x : BusTxn} {s t : State} (h : HostEffect x s t) : t.rk = s.rk ∧ t.dout = s.dout := by
  cases h <;> exact ⟨rfl, rfl⟩

/-- Settles O22: only the success of a command other than NOP writes the bank, and with the schedule of KEY. -/
theorem bankChangesOnlyByASuccessfulDerivation : Obligations.BankChangesOnlyByASuccessfulDerivation := by
  intro s t hstep hchange
  rcases step_agents hstep with hreset | ⟨hmoves, hcore⟩ | ⟨x, -, a, u, rfl, heffect, -⟩
  · exact .inl hreset
  · refine .inr ⟨hmoves, ?_⟩
    rcases coreTurn_results hcore with rfl | ⟨e, rfl⟩ | ⟨i, hp, hpass, rfl⟩
    · exact absurd rfl hchange
    · exact absurd rfl hchange
    · have hi : i ≠ .nop := by
        rintro rfl
        exact hchange rfl
      have hbank : (succeed (writesOf i (setAgenda s.agenda.tail s)) (setAgenda s.agenda.tail s)).rk =
          keyBank (deriveRoundKeys s.key) := by simp [succeed, writesOf_rk hi]
      exact ⟨rfl, keyv_of_pass (s := setAgenda s.agenda.tail s) hi hpass, ⟨encode i, i, hp, decode_encode i, hi⟩,
        hbank ▸ keyBank_deriveRoundKeys s.key⟩
  · exact absurd (hostEffect_results heffect).1 hchange

/-- Settles O23: only the success of a BLK command writes DOUT. -/
theorem doutChangesOnlyByASuccessfulBlockCommand : Obligations.DoutChangesOnlyByASuccessfulBlockCommand := by
  intro s t hstep hchange
  rcases step_agents hstep with hreset | ⟨hmoves, hcore⟩ | ⟨x, -, a, u, rfl, heffect, -⟩
  · exact .inl hreset
  · refine .inr ⟨hmoves, ?_⟩
    rcases coreTurn_results hcore with rfl | ⟨e, rfl⟩ | ⟨i, hp, -, rfl⟩
    · exact absurd rfl hchange
    · exact absurd rfl hchange
    · refine ⟨rfl, ?_⟩
      by_cases henc : i = .blkEnc
      · subst henc
        exact .inl hp
      · by_cases hdec : i = .blkDec
        · subst hdec
          exact .inr hp
        · exact absurd (by simp [succeed, writesOf_dout henc hdec]) hchange
  · exact absurd (hostEffect_results heffect).2 hchange

/-! ## KEY, IV and DIN (R41 to R43) -/

/-- The core's step changes neither KEY, IV, DIN nor a flag but DONE. -/
theorem coreTurn_inputs {s t : State} (h : coreTurn s = .next t) :
    t.key = s.key ∧ t.iv = s.iv ∧ t.din = s.din ∧ t.ovr = s.ovr ∧ t.ctrlIe = s.ctrlIe := by
  rcases coreTurn_results h with rfl | ⟨e, rfl⟩ | ⟨i, -, -, rfl⟩
  · exact ⟨rfl, rfl, rfl, rfl, rfl⟩
  · exact ⟨rfl, rfl, rfl, rfl, rfl⟩
  · exact ⟨rfl, rfl, rfl, rfl, rfl⟩

/-- A host access that changes KEY, IV or DIN is an accepted write of that register. -/
theorem hostEffect_inputs {x : BusTxn} {s t : State} (h : HostEffect x s t) :
    (t.key ≠ s.key → s.pending = none ∧ x = hostTransaction (.wr .key t.key)) ∧
    (t.iv ≠ s.iv → s.pending = none ∧ x = hostTransaction (.wr .iv t.iv)) ∧
    (t.din ≠ s.din → s.pending = none ∧ x = hostTransaction (.wr .din t.din)) := by
  cases h with
  | key hidle hx => exact ⟨fun _ => ⟨hidle, hx⟩, absurd rfl, absurd rfl⟩
  | iv hidle hx => exact ⟨absurd rfl, fun _ => ⟨hidle, hx⟩, absurd rfl⟩
  | din hidle hx => exact ⟨absurd rfl, absurd rfl, fun _ => ⟨hidle, hx⟩⟩
  | nothing | draw | ctrl | status | dropped | issued | msgLen | buffer => exact ⟨absurd rfl, absurd rfl, absurd rfl⟩

/-- The agenda's head, named by the host instruction that its transaction is. -/
theorem head_host_congr {ts : List Turn} {x y : BusTxn} (hx : ts.head? = some (.host x)) (h : x = y) :
    ts.head? = some (.host y) := h ▸ hx

/-- Settles O25: the core changes none of the three, and a host access each one by its own accepted write. -/
theorem inputRegistersChangeOnlyByIdleWrites : Obligations.InputRegistersChangeOnlyByIdleWrites := by
  intro s t hstep hreset
  rcases step_agents hstep with hres | ⟨-, hcore⟩ | ⟨x, hx, a, u, rfl, heffect, -⟩
  · exact absurd hres hreset
  · obtain ⟨hkey, hiv, hdin, -⟩ := coreTurn_inputs hcore
    exact ⟨absurd hkey, absurd hiv, absurd hdin⟩
  · obtain ⟨hkey, hiv, hdin⟩ := hostEffect_inputs heffect
    exact ⟨fun h => (hkey h).imp_right (head_host_congr hx), fun h => (hiv h).imp_right (head_host_congr hx),
      fun h => (hdin h).imp_right (head_host_congr hx)⟩

/-! ## OVR (R38) -/

/-- A host access that clears OVR is a STATUS write with bit 4 set. -/
theorem hostEffect_clears_ovr {x : BusTxn} {s t : State} (h : HostEffect x s t) (hs : s.ovr = true)
    (ht : t.ovr = false) : x.wdata.getLsbD 4 = true ∧ x = hostTransaction (.wr .status x.wdata) := by
  cases h with
  | status hx => exact ⟨by simpa [hs] using ht, hx⟩
  | dropped => cases ht
  | nothing | draw | ctrl | issued | key | iv | din | msgLen | buffer => exact absurd (hs.symm.trans ht) (by decide)

/-- A host access that sets OVR is a dropped write. -/
theorem hostEffect_sets_ovr {x : BusTxn} {s t : State} (h : HostEffect x s t) (hs : s.ovr = false)
    (ht : t.ovr = true) : x.kind = .write ∧ s.pending ≠ none ∧ t = setOverrun s := by
  cases h with
  | dropped hwrite hbusy => exact ⟨hwrite, hbusy, rfl⟩
  | status => simp [hs] at ht
  | nothing | draw | ctrl | issued | key | iv | din | msgLen | buffer => exact absurd (hs.symm.trans ht) (by decide)

/-- Settles O26: the core leaves OVR, and a host access clears or sets it in one way each. -/
theorem overrunIsSticky : Obligations.OverrunIsSticky := by
  intro s t hstep
  rcases step_agents hstep with hres | ⟨-, hcore⟩ | ⟨x, hx, a, u, rfl, heffect, hokay⟩
  · refine ⟨fun _ _ => .inl hres, fun _ ht => ?_⟩
    obtain ⟨ts, hagenda⟩ := List.head?_eq_some_iff.1 hres
    rw [step, nextTurn, hagenda] at hstep
    cases hstep
    cases ht
  · obtain ⟨-, -, -, hovr, -⟩ := coreTurn_inputs hcore
    have hsame : t.ovr = s.ovr := hovr
    exact ⟨fun hs ht => absurd (hs.symm.trans (hsame.symm.trans ht)) (by decide),
      fun hs ht => absurd (hs.symm.trans (hsame.symm.trans ht)) (by decide)⟩
  · refine ⟨fun hs ht => .inr ⟨x.wdata, ?_⟩, fun hs ht => ?_⟩
    · obtain ⟨hbit, hstatus⟩ := hostEffect_clears_ovr heffect hs ht
      exact ⟨hbit, head_host_congr hx hstatus⟩
    · obtain ⟨hwrite, hbusy, rfl⟩ := hostEffect_sets_ovr heffect hs ht
      obtain rfl := hokay hwrite
      exact ⟨hbusy, x, hwrite, hx, rfl⟩

/-! ## The interrupt wire (R53, R360) -/

/-- A completion, failed or not, sets DONE and leaves IE. -/
theorem coreTurn_done {s t : State} (hp : s.pending ≠ none) (h : coreTurn s = .next t) : t.done = true := by
  rcases coreTurn_cases h with ⟨hidle, -⟩ | ⟨op, i, -, -, hexec⟩ | ⟨op, b, -, -, rfl⟩
  · exact absurd hidle hp
  · rcases exec_cases hexec with ⟨e, -, rfl⟩ | ⟨-, rfl⟩
    · rfl
    · rfl
  · rfl

/-- The core's step never lowers the interrupt wire. -/
theorem coreTurn_keeps_irq {s t : State} (h : coreTurn s = .next t) (hs : irq s = true) : irq t = true := by
  by_cases hp : s.pending = none
  · have hsame : Host.Outcome.next s = .next t := (coreStep_of_idle hp).symm.trans h
    cases hsame
    exact hs
  · obtain ⟨-, -, -, -, hie⟩ := coreTurn_inputs h
    obtain ⟨hset, -⟩ : s.ctrlIe = true ∧ s.done = true := by simpa [irq] using hs
    rw [irq, hie, hset, coreTurn_done hp h, Bool.and_true]

/-- The host accesses that lower the interrupt wire. -/
theorem hostEffect_lowers_irq {x : BusTxn} {s t : State} (h : HostEffect x s t) (hs : irq s = true)
    (ht : irq t = false) :
    (x.wdata.getLsbD 1 = true ∧ x = hostTransaction (.wr .status x.wdata)) ∨
      (s.pending = none ∧ x = hostTransaction (.wr .cmd x.wdata)) ∨
      (x.wdata.getLsbD 0 = false ∧ x = hostTransaction (.wr .ctrl x.wdata)) := by
  obtain ⟨hie, hdone⟩ : s.ctrlIe = true ∧ s.done = true := by simpa [irq] using hs
  cases h with
  | status hx => exact .inl ⟨by simpa [irq, hie, hdone] using ht, hx⟩
  | issued hidle hx => exact .inr (.inl ⟨hidle, hx⟩)
  | ctrl hx => exact .inr (.inr ⟨by simpa [irq, hie, hdone] using ht, hx⟩)
  | nothing | draw | dropped | key | iv | din | msgLen | buffer => exact absurd (hs.symm.trans ht) (by decide)

/-- Settles O27: completions set DONE, so the core never lowers irq; three host writes do. -/
theorem interruptFollowsEnableAndDone : Obligations.InterruptFollowsEnableAndDone := by
  refine ⟨fun s => by simp [irq], fun s t hp hcore => ?completion, fun s t hstep hs ht => ?falls⟩
  case completion =>
    rw [coreStep_eq] at hcore
    have hdone := coreTurn_done hp hcore
    obtain ⟨-, -, -, -, hie⟩ := coreTurn_inputs hcore
    exact ⟨hdone, by rw [irq, hdone, hie, Bool.and_true]⟩
  case falls =>
    rcases step_agents hstep with hres | ⟨-, hcore⟩ | ⟨x, hx, a, u, rfl, heffect, -⟩
    · exact .inl hres
    · have hkept : irq t = true := coreTurn_keeps_irq hcore hs
      exact absurd (hkept.symm.trans ht) (by decide)
    · refine .inr ⟨x.wdata, ?_⟩
      rcases hostEffect_lowers_irq heffect hs ht with ⟨hbit, hw⟩ | ⟨hidle, hw⟩ | ⟨hbit, hw⟩
      · exact .inl ⟨hbit, head_host_congr hx hw⟩
      · exact .inr (.inl ⟨hidle, head_host_congr hx hw⟩)
      · exact .inr (.inr ⟨hbit, head_host_congr hx hw⟩)

end Sys2Proof.Machine
end

section
/-! PROOFS. The family other: a pending command and the host (O28 to O30; 20_memory.md R95, R96, 40_command_cycle.md R158,
R159). -/

namespace Sys2Proof.Machine

/-! ## What a pending command reads and has written so far (R95, R158) -/

/-- From `s` to `t` nothing changed that the completion of the pending command reads or writes, ERR and DONE apart. -/
def PendingKept (s t : State) : Prop :=
  SameInputs s t ∧ t.pending = s.pending ∧ t.rk = s.rk ∧ t.dout = s.dout

theorem pendingKept_refl (s : State) : PendingKept s s :=
  ⟨⟨rfl, rfl, rfl, rfl, rfl, rfl, fun _ => rfl⟩, rfl, rfl, rfl⟩

theorem pendingKept_trans {s t u : State} (h : PendingKept s t) (h' : PendingKept t u) : PendingKept s u := by
  obtain ⟨hin, hp, hrk, hdout⟩ := h
  obtain ⟨hin', hp', hrk', hdout'⟩ := h'
  exact ⟨⟨hin'.key.trans hin.key, hin'.keyv.trans hin.keyv, hin'.iv.trans hin.iv, hin'.ivv.trans hin.ivv,
    hin'.din.trans hin.din, hin'.msgLen.trans hin.msgLen, fun a => (hin'.buffer a).trans (hin.buffer a)⟩,
    hp'.trans hp, hrk'.trans hrk, hdout'.trans hdout⟩

/-- The model's own agenda and answer are nothing that a command reads. -/
theorem pendingKept_setAgenda (ts : List Turn) (s : State) : PendingKept s (setAgenda ts s) :=
  ⟨⟨rfl, rfl, rfl, rfl, rfl, rfl, msgByte_congr rfl rfl⟩, rfl, rfl, rfl⟩

theorem pendingKept_setAnswer (a : Answer) (s : State) : PendingKept s (setAnswer a s) :=
  ⟨⟨rfl, rfl, rfl, rfl, rfl, rfl, msgByte_congr rfl rfl⟩, rfl, rfl, rfl⟩

/-- While busy every effect that would change an input is excluded. -/
theorem pendingKept_of_hostEffect {x : BusTxn} {s t : State} (hp : s.pending ≠ none) (h : HostEffect x s t) :
    PendingKept s t := by
  cases h with
  | nothing | draw | ctrl | status | dropped =>
    exact ⟨⟨rfl, rfl, rfl, rfl, rfl, rfl, msgByte_congr rfl rfl⟩, rfl, rfl, rfl⟩
  | issued hidle | key hidle | iv hidle | din hidle | msgLen hidle | buffer a hidle => exact absurd hidle hp

theorem pendingKept_of_hostTurn {x : BusTxn} {s t : State} (hp : s.pending ≠ none) (h : hostTurn x s = .next t) :
    PendingKept s t := by
  obtain ⟨a, u, rfl, heffect, -⟩ := hostTurn_effect h
  exact pendingKept_trans (pendingKept_of_hostEffect hp heffect) (pendingKept_setAnswer a u)

/-- Settles O28: an answered access to a busy core has only effects that leave all of these. -/
theorem pendingCommandSeesFrozenInputs : Obligations.PendingCommandSeesFrozenInputs :=
  fun _ _ _ hp haccess => pendingKept_of_hostTurn hp haccess

/-! ## The completion depends on those inputs only (R158) -/

theorem checkPasses_congr {s t : State} (h : SameInputs s t) (c : Check) : checkPasses c t = checkPasses c s := by
  cases c with
  | keyLoaded => exact h.keyv
  | ivLoaded => exact h.ivv
  | encryptLength | decryptLength => simp only [checkPasses, h.msgLen]

theorem firstFailure_congr {s t : State} (h : SameInputs s t) (cs : List Check) :
    firstFailure cs t = firstFailure cs s := by
  induction cs with
  | nil => rfl
  | cons c cs ih => rw [firstFailure, firstFailure, checkPasses_congr h, ih]

theorem inputMessage_congr {s t : State} (h : SameInputs s t) : inputMessage t = inputMessage s := by
  rw [inputMessage, inputMessage, h.msgLen, memRead_congr h.buffer]

theorem writesOf_congr {s t : State} (h : SameInputs s t) (i : Instr) : writesOf i t = writesOf i s := by
  cases i with
  | nop => rfl
  | keysched => simp only [writesOf, keyschedWrites, h.key]
  | blkEnc => simp only [writesOf, blkEncWrites, h.key, h.din]
  | blkDec => simp only [writesOf, blkDecWrites, h.key, h.din]
  | msgEncEcb => simp only [writesOf, msgEncEcbWrites, encryptionWrites, h.key, inputMessage_congr h]
  | msgDecEcb => simp only [writesOf, msgDecEcbWrites, decryptionWrites, h.key, inputMessage_congr h]
  | msgEncCbc => simp only [writesOf, msgEncCbcWrites, encryptionWrites, ivBytes, h.key, h.iv, inputMessage_congr h]
  | msgDecCbc => simp only [writesOf, msgDecCbcWrites, decryptionWrites, ivBytes, h.key, h.iv, inputMessage_congr h]

theorem sameResults_raiseError {s t : State} (h : PendingKept s t) (e : ErrCode) :
    SameResults (raiseError e s) (raiseError e t) := by
  obtain ⟨hin, -, hrk, hdout⟩ := h
  exact ⟨hrk, hdout, hin.msgLen, hin.buffer, rfl, rfl, rfl⟩

theorem sameResults_succeed {s t : State} (h : PendingKept s t) (w : Writes) :
    SameResults (succeed w s) (succeed w t) := by
  obtain ⟨hin, -, hrk, hdout⟩ := h
  refine ⟨by simp [succeed, hrk], by simp [succeed, hdout], by simp [succeed, hin.msgLen], fun a => ?buffer,
    rfl, rfl, rfl⟩
  cases hm : w.msg with
  | none => rw [(succeed_of_no_msg hm t).2, (succeed_of_no_msg hm s).2, hin.buffer]
  | some mn =>
    obtain ⟨m, n⟩ := mn
    rw [msgByte_succeed t w m n hm, msgByte_succeed s w m n hm, hin.buffer]

/-- R158: the completions of one pending command from states with the same inputs have the same results. -/
theorem sameResults_of_coreTurn {s t u v : State} (hp : s.pending ≠ none) (h : PendingKept s t)
    (hv : coreTurn s = .next v) (hu : coreTurn t = .next u) : SameResults v u ∧ u.pending = none := by
  have ⟨hin, hpt, _⟩ := h
  obtain ⟨op, hop⟩ := Option.ne_none_iff_exists'.1 hp
  have hopt : t.pending = some op := hpt.trans hop
  obtain ⟨i, -, hd⟩ | hd := decode_cases op
  · have hvs : exec i s = .next v := (coreStep_of_legal hop hd).symm.trans hv
    have hut : exec i t = .next u := (coreStep_of_legal hopt hd).symm.trans hu
    cases hf : firstFailure (checksOf i) s with
    | none =>
      cases (exec_of_pass hf).symm.trans hvs
      cases (exec_of_pass ((firstFailure_congr hin _).trans hf)).symm.trans hut
      rw [writesOf_congr hin]
      exact ⟨sameResults_succeed h _, rfl⟩
    | some e =>
      cases (exec_of_fail hf).symm.trans hvs
      cases (exec_of_fail ((firstFailure_congr hin _).trans hf)).symm.trans hut
      exact ⟨sameResults_raiseError h e, rfl⟩
  · cases (coreStep_of_illegal hop hd).symm.trans hv
    cases (coreStep_of_illegal hopt hd).symm.trans hu
    exact ⟨sameResults_raiseError h .illegalCmd, rfl⟩

/-! ## Any number of host accesses first (R159) -/

/-- No host access changes the turns still to come. -/
theorem hostEffect_agenda {x : BusTxn} {s t : State} (h : HostEffect x s t) : t.agenda = s.agenda := by
  cases h <;> rfl

theorem run_one (s : State) : Sys2Proof.core.run 1 s = step s := by
  cases h : step s with
  | next t => exact run_succ_next h
  | fault | refused =>
    simp only [Host.Core.run, show Sys2Proof.core.step s = _ from h]
    rfl

/-- A busy core with only answered host accesses to come ends at its own step, from a state with its inputs kept. -/
theorem run_host_turns {ts : List Turn} {s : State} (hp : s.pending ≠ none) (hts : onlyOkayHost ts)
    (hagenda : s.agenda = ts) :
    ∃ t, Sys2Proof.core.run (ts.length + 1) s = coreTurn t ∧ PendingKept s t := by
  induction ts generalizing s with
  | nil => exact ⟨s, (run_one s).trans (step_of_empty_agenda hagenda), pendingKept_refl s⟩
  | cons turn ts ih =>
    obtain ⟨x, rfl, hx⟩ := hts turn (by simp)
    obtain ⟨t, ht⟩ := hostTurn_of_wellFormed hx (setAgenda ts s)
    have hkept : PendingKept s t := pendingKept_trans (pendingKept_setAgenda ts s) (pendingKept_of_hostTurn hp ht)
    have hrest : t.agenda = ts := by
      obtain ⟨a, u, rfl, heffect, -⟩ := hostTurn_effect ht
      exact hostEffect_agenda heffect
    have hstep : step s = .next t := by
      rw [step, nextTurn, hagenda]
      exact ht
    have hothers : onlyOkayHost ts := fun turn hturn => hts turn (List.mem_cons_of_mem _ hturn)
    obtain ⟨u, hrun, hkept'⟩ := ih (by rwa [hkept.2.1]) hothers hrest
    exact ⟨u, (run_succ_next hstep).trans hrun, pendingKept_trans hkept hkept'⟩

/-- Settles O29: the accesses keep the inputs, and the completion from kept inputs has the same results. -/
theorem completionTimeDoesNotChangeTheResult : Obligations.CompletionTimeDoesNotChangeTheResult := by
  intro s ts hp hts
  obtain ⟨t, hrun, hkept⟩ := run_host_turns (s := setAgenda ts s) hp hts rfl
  obtain ⟨u, hu⟩ := coreTurn_next t
  obtain ⟨v, hv⟩ := coreTurn_next s
  obtain ⟨hsame, hidle⟩ := sameResults_of_coreTurn hp (pendingKept_trans (pendingKept_setAgenda ts s) hkept) hv hu
  exact ⟨u, v, hrun.trans hu, hv, hsame, hidle⟩

/-! ## A host that avoids the hazards (R400, R402) -/

/-- A register write that is not dropped while busy leaves OVR or clears it. -/
theorem writeReg_ovr_of_not_dropped {r : RegName} (hr : droppedWhileBusy r = false) (w : Word64) (s : State)
    (h : (writeReg r w s).ovr = true) : s.ovr = true := by
  cases r with
  | status =>
    rw [writeReg, writeStatus_ovr, Bool.and_eq_true] at h
    exact h.1
  | id | ctrl | dout | rk => exact h
  | cmd | key | iv | din | msgLen => cases hr

/-- An access that avoids the hazards has an offset of the register page, where no register stands, or one whose read is
specified or whose write is not dropped. -/
theorem avoidsBusyHazards_cases {x : BusTxn} (h : avoidsBusyHazards x = true) :
    ∃ off, x.offset? = some off ∧ off < 0x1000 ∧ ∀ r, regAt off = some r →
      (x.kind = .read → unspecifiedWhileBusy r = false) ∧ (x.kind = .write → droppedWhileBusy r = false) := by
  unfold avoidsBusyHazards at h
  split at h
  · cases h
  next off ho =>
    split_ifs at h with hpage
    refine ⟨off, ho, by omega, fun r hr => ?_⟩
    rw [hr] at h
    cases hk : x.kind with
    | read =>
      rw [hk] at h
      exact ⟨fun _ => by simpa using h, nofun⟩
    | write =>
      rw [hk] at h
      exact ⟨nofun, fun _ => by simpa using h⟩

theorem acceptWhenIdle_draws {write : State → State} {s : State} (h : (write s).draws = s.draws) :
    (acceptWhenIdle write s).draws = s.draws := by
  by_cases hp : s.pending = none
  · rw [acceptWhenIdle_of_idle hp, h]
  · rw [acceptWhenIdle_of_busy hp, setOverrun_draws]

theorem writeReg_draws (r : RegName) (w : Word64) (s : State) : (writeReg r w s).draws = s.draws := by
  cases r with
  | cmd | key | iv | din | msgLen => exact acceptWhenIdle_draws rfl
  | id | ctrl | status | dout | rk => rfl

/-- An access of the register page that meets no hazard: a specified read, or a write that is not dropped. -/
theorem accessAt_of_no_hazard {kind : BusKind} {off : Nat} (hpage : off < 0x1000)
    (hreg : ∀ r, regAt off = some r →
      (kind = .read → unspecifiedWhileBusy r = false) ∧ (kind = .write → droppedWhileBusy r = false))
    (w : Word64) (s : State) :
    (accessAt kind off w s).2.draws = s.draws ∧ ((accessAt kind off w s).2.ovr = true → s.ovr = true) := by
  cases kind with
  | read =>
    have hread : (accessAt .read off w s).2 = s := by
      simp only [accessAt, if_pos hpage, readPage]
      cases hr : regAt off with
      | none => rfl
      | some r => simp [(hreg r hr).1 rfl]
    rw [hread]
    exact ⟨rfl, id⟩
  | write =>
    simp only [accessAt, if_pos hpage, writePage]
    cases hr : regAt off with
    | none => exact ⟨rfl, id⟩
    | some r => exact ⟨writeReg_draws r w s, writeReg_ovr_of_not_dropped ((hreg r hr).2 rfl) w s⟩

/-- An answered access is the access at its offset, its answer stored. -/
theorem hostTurn_eq_accessAt {x : BusTxn} {s t : State} {off : Nat} (ho : x.offset? = some off)
    (h : hostTurn x s = .next t) : ∃ a, t = setAnswer a (accessAt x.kind off x.wdata s).2 := by
  unfold hostTurn busAccess at h
  rw [ho] at h
  dsimp only at h
  split_ifs at h
  split at h
  · cases h
  · cases h
  all_goals
    next heq =>
      injection h with h
      exact ⟨_, by rw [heq, ← h]⟩

/-- Settles O30: such an access is answered with a specified value, or writes no register whose write is dropped. -/
theorem carefulHostMeetsNoHazard : Obligations.CarefulHostMeetsNoHazard := by
  intro s t x _ havoid haccess
  obtain ⟨off, ho, hpage, hreg⟩ := avoidsBusyHazards_cases havoid
  obtain ⟨a, rfl⟩ := hostTurn_eq_accessAt ho haccess
  exact accessAt_of_no_hazard hpage hreg x.wdata _

end Sys2Proof.Machine
end

section
/-! PROOFS. The family other: the bus and the host instructions (O8, O10, O31, O32, O34, O38). -/

namespace Sys2Proof.Machine

/-! ## Command words (R120) -/

theorem toNat_commandByte (w : Word64) : (commandByte w).toNat = w.toNat % 256 := BitVec.toNat_setWidth 8 w

/-- A byte decodes to a command exactly when it is the command's opcode. -/
theorem decode_eq_legal_iff (b : Byte) (i : Instr) : decode b = .legal i ↔ b = encode i := by
  refine ⟨fun h => ?_, fun h => h ▸ decode_encode i⟩
  obtain ⟨i', hb, hd⟩ | hd := decode_cases b
  · cases h.symm.trans hd
    exact hb
  · cases h.symm.trans hd

/-- Settles O8: the command byte is the word modulo 256, and an idle core issues nothing else of the word. -/
theorem onlyTheLowByteOfACommandWordCounts : Obligations.OnlyTheLowByteOfACommandWordCounts := by
  refine ⟨fun w i => ?decodes, fun s v w hlow hidle => ?issues⟩
  case decodes => rw [decode_eq_legal_iff, ← BitVec.toNat_inj, toNat_commandByte]
  case issues =>
    have hbyte : commandByte v = commandByte w := BitVec.eq_of_toNat_eq (by simpa only [toNat_commandByte] using hlow)
    have hissue : issue v s = issue w s := by rw [issue, issue, hbyte]
    rw [hostStep_wr_cmd_of_idle hidle, hostStep_wr_cmd_of_idle hidle, hissue]

/-! ## Host instructions as transactions (R130) -/

theorem regOffset_inj {r r' : RegName} (h : regOffset r = regOffset r') : r = r' :=
  Option.some.inj ((regAt_regOffset r).symm.trans ((congrArg regAt h).trans (regAt_regOffset r')))

/-- An aligned 8-byte access at an offset of the window is one the core answers with okay. -/
theorem wellFormed_of_offset {kind : BusKind} {off : Nat} (h : off < 0x1000 + Config.msgbufBytes) (ha : off % 8 = 0)
    (w : Word64) : (BusTxn.mk kind (Config.coreBase + off) 8 w).wellFormed = true :=
  (wellFormed_iff _).2 ⟨off, offset?_coreBase_add h, rfl, ha⟩

theorem wellFormed_of_register {kind : BusKind} (r : RegName) (w : Word64) :
    (BusTxn.mk kind (Config.coreBase + regOffset r) 8 w).wellFormed = true := by
  obtain ⟨hpage, ha⟩ := regOffset_lt r
  exact wellFormed_of_offset (by omega) ha w

theorem wellFormed_of_bufferWord {kind : BusKind} {a : Nat} (h : bufferWordInRange a = true) (w : Word64) :
    (BusTxn.mk kind (Config.coreBase + (0x1000 + 8 * a)) 8 w).wellFormed = true := by
  have hin : 8 * a + 8 ≤ Config.msgbufBytes := by simpa [bufferWordInRange] using h
  exact wellFormed_of_offset (by omega) (by omega) w

/-- A well-formed host instruction is an access the core answers with okay. -/
theorem wellFormed_hostTransaction {h : HostInstr} (hwf : h.wellFormed = true) :
    (hostTransaction h).wellFormed = true := by
  cases h with
  | rd r => exact wellFormed_of_register r 0
  | wr r v => exact wellFormed_of_register r v
  | rdbuf a => exact wellFormed_of_bufferWord hwf 0
  | wrbuf a v => exact wellFormed_of_bufferWord hwf v
  | cmd i => exact wellFormed_of_register .cmd (encodeWord i)
  | cmdByte b => exact wellFormed_of_register .cmd (b.setWidth 64)

/-- Settles O10: the encodings are the definitions' own, the register map has an inverse, and the offsets are aligned. -/
theorem hostInstructionsAreSingleAccesses : Obligations.HostInstructionsAreSingleAccesses :=
  ⟨fun _ => wellFormed_hostTransaction, fun _ => rfl, fun _ _ => rfl, fun _ => rfl, fun _ _ => rfl, fun _ => rfl,
    fun _ => rfl, fun _ => rfl, rfl, fun _ => rfl, fun _ _ => regOffset_inj⟩

/-! ## Bus errors and addresses outside the window (R81 to R83, R85) -/

theorem offset?_outside {kind : BusKind} {addr size : Nat} {w : Word64}
    (h : addr < Config.coreBase ∨ Config.coreBase + 0x1000 + Config.msgbufBytes ≤ addr) :
    (BusTxn.mk kind addr size w).offset? = none := by
  have hout : ¬(Config.coreBase ≤ addr ∧ addr - Config.coreBase < 0x1000 + Config.msgbufBytes) := by omega
  rw [BusTxn.offset?, if_neg hout]

/-- The step of a transaction the core does not decode is refused, and of one it answers with error a fault. -/
theorem accessStep_of_notDecoded {x : BusTxn} {s : State} (h : busAccess x s = (.notDecoded, s)) :
    accessStep x s = .refused .outsideWindow := by
  rw [accessStep_eq, hostTurn, h]

theorem accessStep_of_error {x : BusTxn} {s : State} (h : busAccess x s = (.error, s)) :
    accessStep x s = .fault .busError := by
  rw [accessStep_eq, hostTurn, h]

/-- Settles O31: the port's rule by its three branches, and what the step makes of each answer. -/
theorem busErrorsExactlyForWrongWidthOrAlignment : Obligations.BusErrorsExactlyForWrongWidthOrAlignment := by
  intro s kind off size w
  refine ⟨fun hin hbad => ?error, fun hin hsize ha => ?okay, fun addr hout => ?outside⟩
  case error =>
    have hport : busAccess ⟨kind, Config.coreBase + off, size, w⟩ s = (.error, s) := by
      have hok : ¬(size = 8 ∧ off % 8 = 0) := by omega
      rw [busAccess, offset?_coreBase_add hin]
      exact if_neg hok
    exact ⟨hport, accessStep_of_error hport⟩
  case okay =>
    subst hsize
    exact hostTurn_of_wellFormed (wellFormed_of_offset hin ha w) s
  case outside =>
    have hport : busAccess ⟨kind, addr, size, w⟩ s = (.notDecoded, s) := by rw [busAccess, offset?_outside hout]
    exact ⟨hport, accessStep_of_notDecoded hport⟩

/-! ## Reads (R86, R92) -/

/-- What a read answers does not depend on the answer the port gave before. -/
theorem accessAt_read_setAnswer (off : Nat) (w : Word64) (a : Answer) (s : State) :
    accessAt .read off w (setAnswer a s) =
      ((accessAt .read off w s).1, setAnswer a (accessAt .read off w s).2) := by
  simp only [accessAt]
  split_ifs
  · unfold readPage
    cases regAt off with
    | none => rfl
    | some r =>
      dsimp only
      rw [busy_setAnswer]
      split_ifs
      · rfl
      · cases r <;> rfl
  · unfold readBuffer
    rw [busy_setAnswer]
    split_ifs
    · rfl
    · rfl

theorem busAccess_read_setAnswer {x : BusTxn} (hk : x.kind = .read) (a : Answer) (s : State) :
    busAccess x (setAnswer a s) = ((busAccess x s).1, setAnswer a (busAccess x s).2) := by
  unfold busAccess
  cases x.offset? with
  | none => rfl
  | some off =>
    dsimp only
    split_ifs
    · rw [hk, accessAt_read_setAnswer]
    · rfl

/-- An answered read of an idle core leaves the state as it is and stores the value it answers. -/
theorem busAccess_of_idle_read {x : BusTxn} {s t : State} (hk : x.kind = .read) (hidle : s.pending = none)
    (h : hostTurn x s = .next t) : ∃ v, busAccess x s = (.okayData v, s) ∧ t = setAnswer (.okayData v) s := by
  unfold hostTurn at h
  rcases busAccess_cases x s with hb | hb | ⟨-, v, hb⟩ | ⟨-, hp, -⟩ | ⟨hw, -⟩ | ⟨hw, -⟩ | ⟨hw, -⟩
  · rw [hb] at h
    cases h
  · rw [hb] at h
    cases h
  · rw [hb] at h
    injection h with h
    exact ⟨v, hb, h.symm⟩
  · exact absurd hidle hp
  all_goals simp [hk] at hw

/-- Settles O32: a read stores its answer and at most uses a draw; while idle it uses none, and the value it answers does
not depend on the stored answer. -/
theorem readsHaveNoSideEffects : Obligations.ReadsHaveNoSideEffects := by
  intro s t x hk haccess
  refine ⟨?frame, fun hidle => ?again⟩
  case frame =>
    rcases hostTurn_cases haccess with ⟨-, v, rfl⟩ | ⟨-, -, rfl⟩ | ⟨hw, -⟩ | ⟨hw, -⟩ | ⟨hw, -⟩
    · rfl
    · rfl
    all_goals simp [hk] at hw
  case again =>
    obtain ⟨v, hb, rfl⟩ := busAccess_of_idle_read hk hidle haccess
    refine ⟨rfl, ?_⟩
    rw [accessStep_eq, hostTurn, busAccess_read_setAnswer hk, hb]
    rfl

/-- Settles O34: the three reads of results and the buffer reads use a draw, every other register is specified. -/
theorem busyReadsOfResultsAreUnspecified : Obligations.BusyReadsOfResultsAreUnspecified := by
  intro s hbusy
  refine ⟨fun r hr => ?result, fun a ha => hostStep_rdbuf_busy a s ha hbusy, ?id, ?ctrl, ?status, ?cmd, ?key, ?iv, ?din,
    fun off hoff ha => accessStep_read_reserved hoff ha 0 s⟩
  case result =>
    have hunspecified : unspecifiedWhileBusy r = true := by obtain rfl | rfl | ⟨i, rfl⟩ := hr <;> rfl
    exact hostStep_rd_busy r s hbusy hunspecified
  case ctrl => exact hostStep_rd_eq (.inr rfl) (ctrlWord_eq_ite s)
  case id | status | cmd | key | iv | din => exact hostStep_rd_eq (.inr rfl) rfl

/-! ## Buffer words (R89) -/

theorem bitsToBytes_bytesToBits_of_length_eight {m : List Byte} (h : m.length = 8) :
    bitsToBytes (bytesToBits 64 m) = m := by
  have hlossless := bitsToBytes_bytesToBits m
  rwa [h] at hlossless

/-- R181: byte j of a word. -/
theorem getD_bitsToBytes (w : Word64) {j : Nat} (hj : j < 8) :
    (bitsToBytes w).getD j 0 = w.extractLsb' (56 - 8 * j) 8 := by
  simp [bitsToBytes, hj]

/-- The word that stands in the buffer after it was written. -/
theorem bufferWord_memWrite (a : Nat) (w : Word64) (s : State) : bufferWord (memWrite a (bitsToBytes w) s) a = w := by
  have hlen : (bitsToBytes w).length = 8 := length_bitsToBytes w
  have hread := memRead_memWrite s a (bitsToBytes w)
  rw [hlen] at hread
  rw [bufferWord, hread]
  exact bytesToBits_bitsToBytes (k := 8) w

/-- R89: byte j of a buffer word is MSGBUF[a + j]. -/
theorem extract_bufferWord (s : State) (a : Nat) {j : Nat} (hj : j < 8) :
    (bufferWord s a).extractLsb' (56 - 8 * j) 8 = msgByte s (a + j) := by
  rw [← getD_bitsToBytes _ hj, bufferWord, bitsToBytes_bytesToBits_of_length_eight (length_memRead s a 8)]
  simp [memRead, hj]

/-- An accepted buffer write changes the buffer and the answer alone. -/
theorem setAnswer_memWrite (a : Nat) (m : List Byte) (s : State) :
    setAnswer .okay (memWrite a m s) = { s with
      msgbuf := (setAnswer .okay (memWrite a m s)).msgbuf
      answer := some .okay } := rfl

/-- A buffer word of an idle core answers with its value, whatever way that value is written. -/
theorem hostStep_rdbuf_eq {a : Nat} {s : State} {v : Word64} (ha : 8 * a + 8 ≤ Config.msgbufBytes)
    (hidle : s.pending = none) (hv : bufferWord s (8 * a) = v) :
    hostStep (.rdbuf a) s = .next { s with answer := some (.okayData v) } := by
  rw [hostStep_rdbuf a s ha hidle, hv]
  rfl

/-- Settles O38: the written word's bytes stand in the buffer, and a buffer word is made of the eight bytes there. -/
theorem bufferWordsAreBigEndian : Obligations.BufferWordsAreBigEndian := by
  intro s a w hidle ha
  have hbyte : ∀ x, msgByte (setAnswer .okay (memWrite (8 * a) (bitsToBytes w) s)) x =
      if 8 * a ≤ x ∧ x < 8 * a + 8 then (bitsToBytes w).getD (x - 8 * a) 0 else msgByte s x := by
    intro x
    have hwrite := msgByte_memWrite s (8 * a) (bitsToBytes w) x
    rw [length_bitsToBytes] at hwrite
    exact hwrite
  refine ⟨setAnswer .okay (memWrite (8 * a) (bitsToBytes w) s), ?write, setAnswer_memWrite _ _ s,
    fun j hj => ?inside, fun x hx => ?outside, ?readBack, bufferWord s (8 * a), hostStep_rdbuf a s ha hidle, fun j hj => extract_bufferWord s (8 * a) hj⟩
  case write => rw [hostStep_wrbuf a w s ha, acceptWhenIdle_of_idle hidle]
  case inside =>
    rw [hbyte, if_pos (by omega), Nat.add_sub_cancel_left, getD_bitsToBytes w hj]
  case outside => rw [hbyte, if_neg (by omega)]
  case readBack => exact hostStep_rdbuf_eq ha hidle (bufferWord_memWrite (8 * a) w s)

end Sys2Proof.Machine
end

section
/-! PROOFS. The family other: the datapath (O45, O46, O53), padding (O55, O56), the modes (O57 to O59) and the round trip on
the machine (O60). -/

namespace Sys2Proof.Machine

/-! ## The initial permutation and the key schedule -/

/-- Settles O45: the tables of IP and IP^-1 hold, each at the other's entries, the places of those entries. -/
theorem finalPermutationUndoesTheInitial : Obligations.FinalPermutationUndoesTheInitial :=
  fun x => ⟨permIPInv_permIP x, permIP_permIPInv x⟩

/-- R214: the loop's round key i is PC-2 of the halves rotated by the first i + 1 shifts together. -/
theorem getD_roundKeysFrom (c d : KeyHalf) (ns : List Nat) {i : Nat} (hi : i < ns.length) :
    (roundKeysFrom c d ns).getD i 0 =
      permPC2 (joinHalves (rotl c (ns.take (i + 1)).sum) (rotl d (ns.take (i + 1)).sum)) := by
  induction ns generalizing c d i with
  | nil => cases hi
  | cons n ns ih =>
    cases i with
    | zero => simp [roundKeysFrom]
    | succ i =>
      have hrest := ih (rotl c n) (rotl d n) (i := i) (by simpa using hi)
      rw [roundKeysFrom, List.getD_cons_succ, hrest, rotl_rotl, rotl_rotl, List.take_succ_cons, List.sum_cons]

/-- Settles O46: the schedule is the loop over the sixteen shifts. -/
theorem roundKeysComeFromCumulativeRotations : Obligations.RoundKeysComeFromCumulativeRotations :=
  fun k _ hi => ⟨length_deriveRoundKeys k, getD_roundKeysFrom (keyC0 k) (keyD0 k) shifts hi⟩

/-! ## The block commands on the machine (R281) -/

/-- Settles O53: BLK_ENC leaves the core idle, so DIN takes DOUT, and BLK_DEC undoes the encryption under the same KEY. -/
theorem blkDecUndoesBlkEnc : Obligations.BlkDecUndoesBlkEnc := by
  intro s hk
  obtain ⟨bank, henc, hbank⟩ := blkEncEnciphersDin s hk
  have hidle : ∀ t : State, t.pending = none →
      hostStep (.wr .din t.dout) t = .next (setAnswer .okay (loadDin t.dout t)) :=
    fun t ht => hostStep_wr_of_idle (loadDin t.dout) rfl ht
  obtain ⟨bank', hdec, hbank'⟩ := blkDecDeciphersDin (setAnswer .okay (loadDin (desEnc s.din s.key)
    { s with rk := bank, dout := desEnc s.din s.key, err := 0, done := true, pending := none })) hk
  have hsame : bank' = bank := Vector.toList_inj.1 (hbank'.trans hbank.symm)
  exact ⟨_, _, _, henc, hidle _ rfl, hdec, desDec_desEnc s.din s.key, hsame, rfl, rfl⟩

/-! ## Padding (R301, R302, R304, R314) -/

/-- The padding of p bytes. -/
def padBytes (p : Nat) : List Byte := List.replicate p (BitVec.ofNat 8 p)

theorem toNat_padByte {p : Nat} (hp : p ≤ 8) : (BitVec.ofNat 8 p).toNat = p := by
  rw [BitVec.toNat_ofNat]
  omega

/-- Data that ends in valid padding is some data with padding after it (R304). -/
theorem endsInPadding_iff (p : Nat) (d : List Byte) :
    endsInPadding p d = true ↔ 1 ≤ p ∧ p ≤ 8 ∧ ∃ m, d = m ++ padBytes p := by
  simp only [endsInPadding, Bool.and_eq_true, decide_eq_true_eq, List.all_eq_true, beq_iff_eq, and_assoc]
  refine and_congr_right fun h1 => and_congr_right fun h8 => ⟨fun ⟨hlen, hall⟩ => ?_, ?_⟩
  · have hlast : lastBytes p d = padBytes p := by
      refine List.eq_replicate_iff.2 ⟨?_, fun b hb => ?_⟩
      · rw [lastBytes, List.length_drop]
        omega
      · exact BitVec.eq_of_toNat_eq ((hall b hb).trans (toNat_padByte h8).symm)
    exact ⟨d.take (d.length - p), by rw [← hlast, lastBytes, List.take_append_drop]⟩
  · rintro ⟨m, rfl⟩
    have hlast : lastBytes p (m ++ padBytes p) = padBytes p := by simp [lastBytes, padBytes]
    refine ⟨by simp [padBytes], fun b hb => ?_⟩
    rw [hlast] at hb
    rw [List.eq_of_mem_replicate hb, toNat_padByte h8]

theorem getLast?_append_padBytes {p : Nat} (h1 : 1 ≤ p) (m : List Byte) :
    (m ++ padBytes p).getLast? = some (BitVec.ofNat 8 p) := by
  have hne : p ≠ 0 := by omega
  simp [padBytes, List.getLast?_append, List.getLast?_replicate, hne]

/-- Valid padding is stripped. -/
theorem unpad_append_padBytes {p : Nat} (h1 : 1 ≤ p) (h8 : p ≤ 8) (m : List Byte) : unpad (m ++ padBytes p) = m := by
  have hends : endsInPadding p (m ++ padBytes p) = true := (endsInPadding_iff _ _).2 ⟨h1, h8, m, rfl⟩
  rw [unpad, getLast?_append_padBytes h1]
  dsimp only
  rw [toNat_padByte h8, if_pos hends]
  simp [padBytes]

/-- All other data is kept whole. -/
theorem unpad_of_not_padded {d : List Byte} (h : ∀ (m : List Byte) (p : Nat), 1 ≤ p → p ≤ 8 → d ≠ m ++ padBytes p) :
    unpad d = d := by
  unfold unpad
  split
  · rfl
  next b _ =>
    have hends : ¬endsInPadding b.toNat d = true := fun hends => by
      obtain ⟨h1, h8, m, hd⟩ := (endsInPadding_iff _ _).1 hends
      exact h m b.toNat h1 h8 hd
    rw [if_neg hends]

/-- Settles O55: data ends in valid padding exactly when it is some data with such bytes after it. -/
theorem unpadStripsExactlyValidPadding : Obligations.UnpadStripsExactlyValidPadding :=
  ⟨fun m _ h1 h8 => unpad_append_padBytes h1 h8 m, fun _ => unpad_of_not_padded⟩

theorem pad_of_aligned {m : List Byte} (h : m.length % 8 = 0) : pad m = m := if_pos h

theorem pad_of_unaligned {m : List Byte} (h : m.length % 8 ≠ 0) : pad m = m ++ padBytes (8 - m.length % 8) := if_neg h

/-- Settles O56: an unaligned message gets valid padding, which is stripped; an aligned one is not padded, so it loses
bytes exactly when it ends in valid padding itself. -/
theorem unpadUndoesPadExceptForPaddedLookalikes : Obligations.UnpadUndoesPadExceptForPaddedLookalikes := by
  refine ⟨fun m hm => ?undone, fun n p h1 h8 haligned => ?lost⟩
  case undone =>
    by_cases ha : m.length % 8 = 0
    · rw [pad_of_aligned ha]
      exact unpad_of_not_padded (hm.resolve_left (absurd ha))
    · rw [pad_of_unaligned ha, unpad_append_padBytes (by omega) (by omega)]
  case lost =>
    have ha : (n ++ padBytes p).length % 8 = 0 := by simpa [padBytes] using haligned
    exact (congrArg unpad (pad_of_aligned ha)).trans (unpad_append_padBytes h1 h8 n)

/-! ## One block of a mode (R277, R309) -/

theorem dec8_enc8 (ks : List RoundKey) {b : List Byte} (hb : b.length = 8) : dec8 ks (enc8 ks b) = b := by
  have hword : bytesToBits 64 (enc8 ks b) = feistel (bytesToBits 64 b) ks := bytesToBits_bitsToBytes (k := 8) _
  rw [dec8, hword, feistel_reverse_feistel, bitsToBytes_bytesToBits_of_length_eight hb]

theorem bxor_bxor_cancel {a b : List Byte} (h : a.length = b.length) : bxor (bxor a b) b = a := by
  refine List.ext_getElem (by simp [h]) fun j h1 h2 => ?_
  rw [getElem_bxor, getElem_bxor, BitVec.xor_assoc, BitVec.xor_self, BitVec.xor_zero]

/-! ## The modes (R307 to R310) -/

/-- R307, R309: ECB decrypts block by block what it encrypts block by block. -/
theorem ecbDecData_ecbEnc (ks : List RoundKey) (m : List Byte) : ecbDecData ks (ecbEnc ks m) = pad m := by
  have hblocks : ∀ b ∈ (blocks (pad m)).map (enc8 ks), b.length = 8 := by simp
  have hcancel : (blocks (pad m)).map (dec8 ks ∘ enc8 ks) = blocks (pad m) :=
    (List.map_congr_left fun b hb => dec8_enc8 ks (length_of_mem_blocks _ b hb)).trans (List.map_id _)
  rw [ecbDecData, ecbEnc, blocks_flatten _ hblocks, List.map_map, hcancel, flatten_blocks _ (length_pad_mod_eight m)]

/-- The ciphertext blocks of the CBC loop. -/
theorem blocks_cbcEncBlocks (ks : List RoundKey) (prev : List Byte) (b : List Byte) (bs : List (List Byte)) :
    blocks (cbcEncBlocks ks prev (b :: bs)) =
      enc8 ks (bxor b prev) :: blocks (cbcEncBlocks ks (enc8 ks (bxor b prev)) bs) := by
  have hlen := length_enc8 ks (bxor b prev)
  rw [cbcEncBlocks, blocks_append _ _ (by rw [hlen]), blocks_of_length_eight _ hlen, List.singleton_append]

/-- R308, R310: the CBC loops with the same first `prev` undo each other. -/
theorem cbcDecBlocks_cbcEncBlocks (ks : List RoundKey) (bs : List (List Byte)) (prev : List Byte) (hp : prev.length = 8)
    (hb : ∀ b ∈ bs, b.length = 8) : cbcDecBlocks ks prev (blocks (cbcEncBlocks ks prev bs)) = bs.flatten := by
  induction bs generalizing prev with
  | nil => rfl
  | cons b bs ih =>
    have hlen : b.length = 8 := hb b (by simp)
    have hxor : (bxor b prev).length = 8 := by simp [hlen, hp]
    rw [blocks_cbcEncBlocks, cbcDecBlocks, dec8_enc8 ks hxor, bxor_bxor_cancel (hlen.trans hp.symm),
      ih _ (length_enc8 _ _) fun c hc => hb c (by simp [hc]), List.flatten_cons]

theorem cbcDecData_cbcEnc (ks : List RoundKey) {iv : List Byte} (hiv : iv.length = 8) (m : List Byte) :
    cbcDecData ks iv (cbcEnc ks iv m) = pad m := by
  rw [cbcDecData, cbcEnc, cbcDecBlocks_cbcEncBlocks ks _ _ hiv (length_of_mem_blocks _),
    flatten_blocks _ (length_pad_mod_eight m)]

/-- Settles O57: blocks are deciphered as they were enciphered, and CBC XORs the same `prev` twice. -/
theorem modesDecryptWhatTheyEncrypt : Obligations.ModesDecryptWhatTheyEncrypt :=
  fun ks m => ⟨ecbDecData_ecbEnc ks m, fun _ hiv => cbcDecData_cbcEnc ks hiv m⟩

/-- Settles O58: the IV is XORed into the first 8 bytes, and the next `prev` is a ciphertext block. -/
theorem wrongIvCorruptsOnlyTheFirstBlock : Obligations.WrongIvCorruptsOnlyTheFirstBlock := by
  intro ks iv iv' c hiv hiv' _
  have hafter : ∀ (prev b : List Byte) (bs : List (List Byte)), prev.length = 8 →
      (cbcDecBlocks ks prev (b :: bs)).drop 8 = cbcDecBlocks ks b bs := by
    intro prev b bs hp
    have hlen : (bxor (dec8 ks b) prev).length = 8 := by simp [hp]
    rw [cbcDecBlocks, List.drop_left' hlen]
  unfold cbcDecData
  cases blocks c with
  | nil => rfl
  | cons b bs => rw [hafter iv b bs hiv, hafter iv' b bs hiv']

/-- The CBC loop over blocks cut in two: the second part starts from the last ciphertext block of a first part that is not
empty. -/
theorem cbcEncBlocks_append (ks : List RoundKey) (as bs : List (List Byte)) (prev : List Byte) (ha : as ≠ []) :
    cbcEncBlocks ks prev (as ++ bs) = cbcEncBlocks ks prev as ++
      cbcEncBlocks ks ((cbcEncBlocks ks prev as).drop (8 * (as.length - 1))) bs := by
  induction as generalizing prev with
  | nil => exact absurd rfl ha
  | cons a as ih =>
    cases as with
    | nil => simp [cbcEncBlocks]
    | cons a' as =>
      have hlen := length_enc8 ks (bxor a prev)
      have hdrop : 8 * ((a :: a' :: as).length - 1) = (enc8 ks (bxor a prev)).length + 8 * ((a' :: as).length - 1) := by
        simp only [List.length_cons, hlen]
        omega
      rw [List.cons_append, cbcEncBlocks, ih _ (by simp), cbcEncBlocks.eq_2 ks prev a (a' :: as), hdrop,
        List.drop_length_add_append, List.append_assoc]

/-- Settles O59: padding a message pads its last piece, and the CBC loop cuts at a block boundary. -/
theorem cbcMessagesSplitAtBlockBoundaries : Obligations.CbcMessagesSplitAtBlockBoundaries := by
  intro ks iv m n _ hm hne
  have hpad : pad (m ++ n) = m ++ pad n := by
    have hmod : (m ++ n).length % 8 = n.length % 8 := by rw [List.length_append]; omega
    by_cases ha : n.length % 8 = 0
    · rw [pad_of_aligned (hmod.trans ha), pad_of_aligned ha]
    · rw [pad_of_unaligned (by rwa [hmod]), pad_of_unaligned ha, hmod, List.append_assoc]
  have hcount := length_blocks m hm
  have hblocks : blocks m ≠ [] := by
    intro hnil
    rw [hnil] at hcount
    exact hne (List.length_eq_zero_iff.1 hcount.symm)
  have hlast : m.length - 8 = 8 * ((blocks m).length - 1) := by omega
  rw [cbcEnc, cbcEnc, cbcEnc, hpad, blocks_append m _ hm, cbcEncBlocks_append ks _ _ iv hblocks, pad_of_aligned hm, hlast]

/-! ## The round trip on the machine (R313) -/

/-- What a MSG command stored is what a read of as many bytes gives. -/
theorem memRead_of_messageStored {m : List Byte} {n : Nat} {s t : State} (h : MessageStored m n s t) :
    memRead t 0 m.length = m := by
  obtain ⟨hbytes, -⟩ := h
  refine List.ext_getElem (length_memRead _ _ _) fun j h1 h2 => ?_
  rw [getElem_memRead, hbytes, Nat.zero_add, if_pos h2, List.getD_eq_getElem m 0 h2]

/-- A MSG command that succeeds leaves KEY, IV and their flags, and ERR = 0. -/
theorem inputs_of_messageStored {m : List Byte} {n : Nat} {s t : State} (h : MessageStored m n s t) :
    t.key = s.key ∧ t.keyv = s.keyv ∧ t.iv = s.iv ∧ t.ivv = s.ivv ∧ t.err = 0 := by
  obtain ⟨-, -, -, hframe⟩ := h
  rw [hframe]
  exact ⟨rfl, rfl, rfl, rfl, rfl⟩

/-- The encryption and the decryption of one mode. -/
def IsModePair (enc dec : Instr) : Prop := (enc = .msgEncEcb ∧ dec = .msgDecEcb) ∨ (enc = .msgEncCbc ∧ dec = .msgDecCbc)

/-- The decryption of the stored ciphertext under the same KEY and IV is the padded message. -/
theorem decryptedOf_ciphertextOf {enc dec : Instr} {s t : State} (hmode : IsModePair enc dec) (hkey : t.key = s.key)
    (hiv : t.iv = s.iv) (hm : inputMessage t = ciphertextOf enc s) : decryptedOf dec t = pad (inputMessage s) := by
  obtain ⟨rfl, rfl⟩ | ⟨rfl, rfl⟩ := hmode
  · rw [decryptedOf, hm, hkey]
    exact ecbDecData_ecbEnc _ _
  · have hbytes : ivBytes t = ivBytes s := by rw [ivBytes, ivBytes, hiv]
    rw [decryptedOf, hm, hkey, hbytes]
    exact cbcDecData_cbcEnc _ (length_ivBytes s) _

theorem take_pad (m : List Byte) : (pad m).take m.length = m := by
  by_cases h : m.length % 8 = 0
  · rw [pad_of_aligned h, List.take_length]
  · rw [pad_of_unaligned h, List.take_left]

theorem length_le_length_pad (m : List Byte) : m.length ≤ (pad m).length := by
  rw [length_pad]
  omega

theorem take_memRead (s : State) (a : Nat) {k n : Nat} (h : k ≤ n) : (memRead s a n).take k = memRead s a k := by
  rw [memRead, memRead, ← List.map_take, List.take_range, Nat.min_eq_left h]

/-- Settles O60: the decryption reads the ciphertext that the encryption stored, with the same KEY and IV. -/
theorem messageRoundTripOnTheMachine : Obligations.MessageRoundTripOnTheMachine := by
  intro s enc dec hmode hk hv hlen
  have henc : enc = .msgEncEcb ∨ enc = .msgEncCbc := hmode.imp And.left And.left
  have hdec : dec = .msgDecEcb ∨ dec = .msgDecCbc := hmode.imp And.right And.right
  obtain ⟨t, htexec, ht⟩ := exec_encryption henc hk hv hlen
  obtain ⟨htkey, htkeyv, htiv, htivv, hterr⟩ := inputs_of_messageStored ht
  have htlen : t.msgLen.toNat = (pad (inputMessage s)).length := ht.2.1
  have hinput : inputMessage t = ciphertextOf enc s := by
    rw [inputMessage, htlen, ← length_ciphertextOf henc]
    exact memRead_of_messageStored ht
  have htfit : t.msgLen.toNat ≤ Config.msgbufBytes := htlen ▸ length_pad_le_msgbufBytes (by simpa using hlen)
  have htblocks : t.msgLen.toNat % 8 = 0 := htlen ▸ length_pad_mod_eight _
  have htv : dec = .msgDecCbc → t.ivv = true := by
    intro hcbc
    obtain ⟨-, rfl⟩ | ⟨hencCbc, -⟩ := hmode
    · cases hcbc
    · exact htivv.trans (hv hencCbc)
  obtain ⟨u, huexec, hu⟩ := exec_decryption hdec (htkeyv.trans hk) htv htfit htblocks
  rw [decryptedOf_ciphertextOf hmode htkey htiv hinput] at hu
  obtain ⟨hukey, -, huiv, -, huerr⟩ := inputs_of_messageStored hu
  have hulen : u.msgLen.toNat = (unpad (pad (inputMessage s))).length := hu.2.1
  have hustored := memRead_of_messageStored hu
  refine ⟨t, u, htexec, huexec, hterr, huerr, hustored, hulen, fun hundone => ?original, huiv.trans htiv,
    hukey.trans htkey, ?bank⟩
  case original =>
    rw [hundone, length_inputMessage] at hulen
    refine ⟨BitVec.eq_of_toNat_eq hulen, ?_⟩
    calc inputMessage u
      _ = memRead u 0 (inputMessage s).length := by rw [inputMessage, hulen, length_inputMessage]
      _ = (pad (inputMessage s)).take (inputMessage s).length := by
        rw [← take_memRead u 0 (length_le_length_pad _), hustored]
      _ = inputMessage s := take_pad _
  case bank =>
    have htrk : t.rk.toList = deriveRoundKeys s.key := ht.2.2.1
    have hurk : u.rk.toList = deriveRoundKeys t.key := hu.2.2.1
    rw [htkey] at hurk
    exact Vector.toList_inj.1 (hurk.trans htrk.symm)

end Sys2Proof.Machine
end

section
/-! PROOFS. The family other: the pseudo-instructions on the machine (O41; 30_encoding.md R131, assumption log 14). -/

namespace Sys2Proof.Machine

/-! ## Schedules of one mover, and the answers' bits -/

/-- One more move at the end of a run. -/
theorem runPseudo_replicate_succ {p : Pseudo} {m : Mover} {n : Nat} {r r' r'' : HostRun}
    (h : runPseudo p (List.replicate n m) r = .next r') (hm : move p m r' = .next r'') :
    runPseudo p (List.replicate (n + 1) m) r = .next r'' := by
  rw [List.replicate_succ', runPseudo_append h, runPseudo_cons hm, runPseudo_nil]

/-- Bit 0 of STATUS is BUSY. -/
theorem getLsbD_statusWord_zero (s : State) : (statusWord s).getLsbD 0 = busy s :=
  (getLsbD_statusWord s 0).trans (by simp)

/-- A move that reads STATUS, whatever pseudo-instruction makes it. -/
theorem move_host_rd_status {p : Pseudo} {r : HostRun} (hn : nextAccess p r.answers = some (.rd .status)) :
    move p .host r = .next ⟨setAnswer (.okayData (statusWord r.state)) r.state,
      r.answers ++ [Answer.okayData (statusWord r.state)]⟩ :=
  move_host hn (hostStep_rd .status r.state (.inr rfl))

/-- Polls of STATUS that all answered BUSY = 1. -/
def BusyPolls (answers : List Answer) : Prop := ∀ a ∈ answers, ∃ v, a = .okayData v ∧ v.getLsbD 0 = true

/-- After such polls the loop of `wait` reads STATUS again. -/
theorem nextPoll_of_busyPolls {answers : List Answer} (h : BusyPolls answers) :
    nextPoll answers = some (.rd .status) := by
  unfold nextPoll
  cases hlast : answers.getLast? with
  | none => rfl
  | some a =>
    obtain ⟨v, rfl, hv⟩ := h a (List.mem_of_getLast? hlast)
    exact if_pos hv

theorem busyPolls_append_singleton {answers : List Answer} {v : Word64} (h : BusyPolls answers)
    (hv : v.getLsbD 0 = true) : BusyPolls (answers ++ [Answer.okayData v]) := by
  intro a ha
  obtain ha | ha := List.mem_append.1 ha
  · exact h a ha
  · exact ⟨v, List.mem_singleton.1 ha, hv⟩

/-- A last answer with BUSY = 0 ends the loop. -/
theorem nextPoll_append_singleton {answers : List Answer} {v : Word64} (hv : v.getLsbD 0 = false) :
    nextPoll (answers ++ [Answer.okayData v]) = none := by
  simp only [nextPoll, List.getLast?_concat, hv]
  rfl

/-! ## ack -/

/-- R131: one STATUS write of 0x12, which clears DONE and OVR. -/
theorem runPseudo_ack (s : State) : ∃ r, runPseudo .ack [.host] ⟨s, []⟩ = .next r ∧ ended .ack r = true ∧
    r.answers = [.okay] ∧ r.state = { s with done := false, ovr := false, answer := some .okay } :=
  ⟨_, runPseudo_cons (move_host (p := .ack) (r := ⟨s, []⟩) rfl (hostStep_wr_status 0x12 s)) [], rfl, rfl, rfl⟩

/-! ## wait -/

/-- Where a `wait` stands: it polls on and every answer had BUSY = 1, or it has ended on an idle core with the first answer
that had BUSY = 0. -/
def WaitInv (r : HostRun) : Prop :=
  BusyPolls r.answers ∨
    (r.state.pending = none ∧ ∃ polls v, r.answers = polls ++ [Answer.okayData v] ∧ BusyPolls polls ∧ v.getLsbD 0 = false)

theorem ended_wait_of_busyPolls {r : HostRun} (h : BusyPolls r.answers) : ended .wait r = false := by
  rw [ended, nextAccess, nextPoll_of_busyPolls h]
  rfl

theorem ended_wait_of_idle_poll {r : HostRun} {polls : List Answer} {v : Word64}
    (h : r.answers = polls ++ [Answer.okayData v]) (hv : v.getLsbD 0 = false) : ended .wait r = true := by
  rw [ended, nextAccess, h, nextPoll_append_singleton hv]
  rfl

/-- What moves under a schedule make of a `wait`. -/
structure WaitProgress (ms : List Mover) (r r' : HostRun) : Prop where
  inv : WaitInv r'
  idle : Mover.core ∈ ms ∨ r.state.pending = none → r'.state.pending = none
  stays : ended .wait r = true → ended .wait r' = true
  ends : Mover.host ∈ ms → r.state.pending = none → ended .wait r' = true

/-- The core's step leaves the core idle. -/
theorem coreTurn_idle {s t : State} (h : coreTurn s = .next t) : t.pending = none := by
  rcases coreTurn_cases h with ⟨hidle, rfl⟩ | ⟨op, i, -, -, hexec⟩ | ⟨op, b, -, -, rfl⟩
  · exact hidle
  · rcases exec_cases hexec with ⟨e, -, rfl⟩ | ⟨-, rfl⟩
    · rfl
    · rfl
  · rfl

theorem waitProgress_core {r : HostRun} (h : WaitInv r) : ∃ r', move .wait .core r = .next r' ∧
    WaitProgress [.core] r r' := by
  obtain ⟨t, ht⟩ := coreTurn_next r.state
  have hidle := coreTurn_idle ht
  exact ⟨_, move_core ht, h.imp_right fun ⟨_, hlast⟩ => ⟨hidle, hlast⟩, fun _ => hidle, id, by simp⟩

/-- A poll answers BUSY, and so goes on while a command is pending and ends when none is. -/
theorem waitProgress_host {r : HostRun} (h : WaitInv r) : ∃ r', move .wait .host r = .next r' ∧
    WaitProgress [.host] r r' := by
  rcases h with hpolls | ⟨hidle, polls, v, hanswers, hpolls, hv⟩
  · refine ⟨_, move_host_rd_status (nextPoll_of_busyPolls hpolls), ?_⟩
    by_cases hp : r.state.pending = none
    · have hbit : (statusWord r.state).getLsbD 0 = false := by rw [getLsbD_statusWord_zero, busy_eq_false_iff, hp]
      have hended := ended_wait_of_idle_poll (r := ⟨setAnswer (.okayData (statusWord r.state)) r.state,
        r.answers ++ [Answer.okayData (statusWord r.state)]⟩) rfl hbit
      exact ⟨.inr ⟨hp, r.answers, _, rfl, hpolls, hbit⟩, fun _ => hp, fun _ => hended, fun _ _ => hended⟩
    · have hbit : (statusWord r.state).getLsbD 0 = true := by
        rw [getLsbD_statusWord_zero, busy_eq_true_iff]
        exact hp
      refine ⟨.inl (busyPolls_append_singleton hpolls hbit), fun hidle => ?_, fun hended => ?_, fun _ => (absurd · hp)⟩
      · exact absurd (hidle.resolve_left (by simp)) hp
      · rw [ended_wait_of_busyPolls hpolls] at hended
        cases hended
  · have hended := ended_wait_of_idle_poll hanswers hv
    exact ⟨r, move_host_ended hended, .inr ⟨hidle, polls, v, hanswers, hpolls, hv⟩, fun _ => hidle, id,
      fun _ _ => hended⟩

theorem waitProgress_move {r : HostRun} (h : WaitInv r) (m : Mover) : ∃ r', move .wait m r = .next r' ∧
    WaitProgress [m] r r' := by
  cases m with
  | host => exact waitProgress_host h
  | core => exact waitProgress_core h

/-- Progress under a schedule and then under another. -/
theorem waitProgress_append {as bs : List Mover} {r r' r'' : HostRun} (ha : WaitProgress as r r')
    (hb : WaitProgress bs r' r'') : WaitProgress (as ++ bs) r r'' where
  inv := hb.inv
  idle h := by
    rw [List.mem_append, or_assoc, or_left_comm] at h
    exact hb.idle (h.imp_right ha.idle)
  stays h := hb.stays (ha.stays h)
  ends h hidle := by
    obtain hin | hin := List.mem_append.1 h
    · exact hb.stays (ha.ends hin hidle)
    · exact hb.ends hin (ha.idle (.inr hidle))

theorem runPseudo_wait (ms : List Mover) {r : HostRun} (h : WaitInv r) :
    ∃ r', runPseudo .wait ms r = .next r' ∧ WaitProgress ms r r' := by
  induction ms generalizing r with
  | nil => exact ⟨r, rfl, h, fun hidle => hidle.resolve_left (by simp), id, by simp⟩
  | cons m ms ih =>
    obtain ⟨r', hmove, hfirst⟩ := waitProgress_move h m
    obtain ⟨r'', hrun, hrest⟩ := ih hfirst.inv
    exact ⟨r'', (runPseudo_cons hmove ms).trans hrun, waitProgress_append hfirst hrest⟩

/-- Every answer of a `wait` but the last of an ended one had BUSY = 1. -/
theorem answers_of_waitInv {r : HostRun} (h : WaitInv r) {j : Nat} (hj : j < r.answers.length) :
    ∃ v, r.answers[j]? = some (.okayData v) ∧
      (v.getLsbD 0 = true ↔ j + 1 < r.answers.length ∨ ended .wait r = false) := by
  rcases h with hpolls | ⟨-, polls, v, hanswers, hpolls, hv⟩
  · obtain ⟨v, hv, hbit⟩ := hpolls _ (List.getElem_mem hj)
    exact ⟨v, by rw [List.getElem?_eq_getElem hj, hv], by simp [hbit, ended_wait_of_busyPolls hpolls]⟩
  · have hended := ended_wait_of_idle_poll hanswers hv
    rw [hanswers, List.length_append, List.length_singleton] at hj ⊢
    by_cases hlast : j < polls.length
    · obtain ⟨v', hv', hbit⟩ := hpolls _ (List.getElem_mem hlast)
      refine ⟨v', by rw [List.getElem?_append_left hlast, List.getElem?_eq_getElem hlast, hv'], ?_⟩
      simp [hbit, hlast]
    · obtain rfl : j = polls.length := by omega
      exact ⟨v, by simp, by simp only [hv, hended, lt_irrefl, or_self, Bool.false_eq_true, Bool.true_eq_false]⟩

/-- An ended `wait` has read STATUS, and leaves the core idle. -/
theorem waitInv_of_ended {r : HostRun} (h : WaitInv r) (hended : ended .wait r = true) :
    r.answers ≠ [] ∧ r.state.pending = none := by
  rcases h with hpolls | ⟨hidle, polls, v, hanswers, -⟩
  · rw [ended_wait_of_busyPolls hpolls] at hended
    cases hended
  · exact ⟨by simp [hanswers], hidle⟩

/-- A read after the core has moved, or on an idle core, ends a `wait`. -/
theorem ended_of_runPseudo_wait {as bs : List Mover} {r r' : HostRun} (h : WaitInv r)
    (hrun : runPseudo .wait (as ++ bs) r = .next r') (hidle : Mover.core ∈ as ∨ r.state.pending = none)
    (hread : Mover.host ∈ bs) : ended .wait r' = true := by
  obtain ⟨r1, hrun1, hfirst⟩ := runPseudo_wait as h
  obtain ⟨r2, hrun2, hrest⟩ := runPseudo_wait bs hfirst.inv
  rw [runPseudo_append hrun1, hrun2] at hrun
  cases hrun
  exact hrest.ends hread (hfirst.idle hidle)

/-! ## run -/

/-- The completion of a command does not read the port's answer. -/
theorem exec_setAnswer {i : Instr} {s t : State} (h : exec i s = .next t) (a : Answer) :
    exec i (setAnswer a s) = .next (setAnswer a t) := by
  have hin : SameInputs s (setAnswer a s) := (pendingKept_setAnswer a s).1
  cases hf : firstFailure (checksOf i) s with
  | none =>
    cases (exec_of_pass hf).symm.trans h
    rw [exec_of_pass ((firstFailure_congr hin _).trans hf), writesOf_congr hin]
    rfl
  | some e =>
    cases (exec_of_fail hf).symm.trans h
    exact exec_of_fail ((firstFailure_congr hin _).trans hf)

/-- The state in which command `i` has just been issued (R151). -/
def issuedState (i : Instr) (s : State) : State := { s with pending := some (encode i), done := false, err := 0 }

/-- `run` before the completion: the command is pending and each of the `k` polls had BUSY = 1. -/
theorem runPseudo_run_polls {i : Instr} {s : State} (hidle : s.pending = none) (k : Nat) : ∃ a polls,
    runPseudo (.run i) (List.replicate (k + 1) .host) ⟨s, []⟩ =
      .next ⟨setAnswer a (issuedState i s), Answer.okay :: polls⟩ ∧
    polls.length = k ∧ BusyPolls polls := by
  induction k with
  | zero =>
    have hcmd := move_host (p := .run i) (r := ⟨s, []⟩) rfl (hostStep_cmd_of_idle hidle i)
    exact ⟨.okay, [], runPseudo_cons hcmd [], rfl, by simp [BusyPolls]⟩
  | succ k ih =>
    obtain ⟨a, polls, hrun, hlen, hpolls⟩ := ih
    have hpoll := move_host_rd_status (p := .run i) (r := ⟨setAnswer a (issuedState i s), Answer.okay :: polls⟩)
      (nextPoll_of_busyPolls hpolls)
    refine ⟨_, _, runPseudo_replicate_succ hrun hpoll, by simp [hlen], busyPolls_append_singleton hpolls ?_⟩
    exact getLsbD_statusWord_zero _

/-- R131: `run` leaves what `exec` gives for the issued command; its last read answers that STATUS. -/
theorem runPseudo_run {s : State} (hidle : s.pending = none) (i : Instr) (k : Nat) : ∃ t r,
    exec i (issuedState i s) = .next t ∧
    runPseudo (.run i) (List.replicate (k + 1) Mover.host ++ [Mover.core, Mover.host]) ⟨s, []⟩ = .next r ∧
    ended (.run i) r = true ∧ r.answers.length = k + 2 ∧
    r.state = { t with answer := some (.okayData (statusWord t)) } := by
  obtain ⟨a, polls, hrun, hlen, hpolls⟩ := runPseudo_run_polls (i := i) hidle k
  obtain ⟨t, ht⟩ : ∃ t, exec i (issuedState i s) = .next t :=
    ⟨_, exec_eq _ _⟩
  have hcore : coreTurn (setAnswer a (issuedState i s)) =
      .next (setAnswer a t) := (coreStep_of_legal rfl (decode_encode i)).trans (exec_setAnswer ht a)
  have hmoved := move_core (p := .run i) (r := ⟨setAnswer a (issuedState i s), Answer.okay :: polls⟩) hcore
  have hpoll := move_host_rd_status (p := .run i) (r := ⟨setAnswer a t, Answer.okay :: polls⟩)
    (nextPoll_of_busyPolls hpolls)
  have hbit : (statusWord (setAnswer a t)).getLsbD 0 = false := by
    rw [getLsbD_statusWord_zero, busy_eq_false_iff]
    exact coreTurn_idle hcore
  refine ⟨t, ⟨setAnswer (.okayData (statusWord t)) t, Answer.okay :: polls ++ [Answer.okayData (statusWord t)]⟩, ht,
    ?_, ?_, ?_, rfl⟩
  · rw [runPseudo_append hrun, runPseudo_cons hmoved, runPseudo_cons hpoll]
    rfl
  · have hlast : nextPoll (polls ++ [Answer.okayData (statusWord t)]) = none := nextPoll_append_singleton hbit
    exact congrArg Option.isNone hlast
  · simp [hlen]

/-! ## loadmsg -/

theorem length_zeroFilled (m : List Byte) : (zeroFilled m).length = 8 * wordsFor m.length := by
  rw [zeroFilled, List.length_append, List.length_replicate, wordsFor]
  omega

/-- The words of a message that fits MSGBUF lie in MSGBUF. -/
theorem wordsFor_le_msgbufBytes {n : Nat} (h : n ≤ Config.msgbufBytes) : 8 * wordsFor n ≤ Config.msgbufBytes := by
  have hwhole := Config.msgbufBytes_mod_eight
  rw [wordsFor]
  omega

/-- R131: the bytes of the zero-filled message: the message's own, then zeros. -/
theorem getD_zeroFilled (m : List Byte) (a : Nat) : (zeroFilled m).getD a 0 = m.getD a 0 := by
  by_cases ha : a < m.length
  · rw [zeroFilled, List.getD_append _ _ _ _ ha]
  · have hout : m.length ≤ a := by omega
    rw [zeroFilled, List.getD_append_right _ _ _ _ hout, List.getD_eq_default m 0 hout]
    simp

/-- The number that `loadmsg` writes to word `j`. -/
def loadWord (m : List Byte) (j : Nat) : Word64 := BitVec.ofNat 64 (numOfBytes (((zeroFilled m).drop (8 * j)).take 8))

theorem bitsToBytes_loadWord {m : List Byte} {j : Nat} (hj : j < wordsFor m.length) :
    bitsToBytes (loadWord m j) = ((zeroFilled m).drop (8 * j)).take 8 := by
  refine bitsToBytes_bytesToBits_of_length_eight ?_
  have hlen := length_zeroFilled m
  rw [List.length_take, List.length_drop]
  omega

/-- Word `j` holds bytes 8j to 8j + 7 of the message, with zeros after its end. -/
theorem getD_bitsToBytes_loadWord {m : List Byte} {j k : Nat} (hj : j < wordsFor m.length) (hk : k < 8) :
    (bitsToBytes (loadWord m j)).getD k 0 = m.getD (8 * j + k) 0 := by
  rw [bitsToBytes_loadWord hj, ← getD_zeroFilled m]
  simp [List.getD_eq_getElem?_getD, hk]

/-- Access `j` of `loadmsg` writes word `j`. -/
theorem nextAccess_loadmsg_word {m : List Byte} {answers : List Answer} (h : answers.length < wordsFor m.length) :
    nextAccess (.loadmsg m) answers = some (.wrbuf answers.length (loadWord m answers.length)) := by
  have hin : answers.length < (loadWords m).length := by simpa [loadWords] using h
  rw [nextAccess, loadAccesses, List.getElem?_append_left hin]
  simp [loadWords, h, loadWord]

/-- Its last access writes MSG_LEN. -/
theorem nextAccess_loadmsg_length {m : List Byte} {answers : List Answer} (h : answers.length = wordsFor m.length) :
    nextAccess (.loadmsg m) answers = some (.wr .msgLen (BitVec.ofNat 64 m.length)) := by
  have hlen : (loadWords m).length = wordsFor m.length := by simp [loadWords]
  rw [nextAccess, loadAccesses, List.getElem?_append_right (by omega), h, hlen, Nat.sub_self]
  rfl

theorem ended_loadmsg {m : List Byte} {r : HostRun} (h : r.answers.length = wordsFor m.length + 1) :
    ended (.loadmsg m) r = true := by
  have hlen : (loadAccesses m).length = wordsFor m.length + 1 := by simp [loadAccesses, loadWords]
  rw [ended, nextAccess, List.getElem?_eq_none (by omega)]
  rfl

/-- From `s` to `t` the buffer and the port's answer alone have changed. -/
def BufferFrame (s t : State) : Prop := t = { s with msgbuf := t.msgbuf, answer := t.answer }

theorem pending_of_bufferFrame {s t : State} (h : BufferFrame s t) (hidle : s.pending = none) : t.pending = none := by
  rw [h]
  exact hidle

theorem bufferFrame_memWrite {s t : State} (h : BufferFrame s t) (a : Nat) (m : List Byte) :
    BufferFrame s (setAnswer .okay (memWrite a m t)) := by
  unfold BufferFrame
  rw [h]
  rfl

/-- After the last access MSG_LEN has changed too. -/
theorem setAnswer_loadMsgLen_of_bufferFrame {s t : State} (h : BufferFrame s t) (w : Word64) :
    setAnswer .okay (loadMsgLen w t) = { s with
      msgbuf := (setAnswer .okay (loadMsgLen w t)).msgbuf
      msgLen := (setAnswer .okay (loadMsgLen w t)).msgLen
      answer := some .okay } := by
  rw [h]
  rfl

/-- After `j` words of `loadmsg m`: the first 8j bytes of MSGBUF are the message's, with zeros after its end, and no
register has changed. -/
structure LoadedWords (m : List Byte) (s : State) (j : Nat) (r : HostRun) : Prop where
  answers : r.answers.length = j
  bytes : ∀ a, msgByte r.state a = if a < 8 * j then m.getD a 0 else msgByte s a
  frame : BufferFrame s r.state

/-- One more word. -/
theorem loadedWords_succ {m : List Byte} {s : State} {j : Nat} {r : HostRun} (hidle : s.pending = none)
    (hfit : m.length ≤ Config.msgbufBytes) (hj : j < wordsFor m.length) (h : LoadedWords m s j r) :
    ∃ r', move (.loadmsg m) .host r = .next r' ∧ LoadedWords m s (j + 1) r' := by
  obtain ⟨rfl, hbytes, hframe⟩ := h
  have hin : 8 * r.answers.length + 8 ≤ Config.msgbufBytes := by
    have := wordsFor_le_msgbufBytes hfit
    omega
  have hstep := hostStep_wrbuf r.answers.length (loadWord m r.answers.length) r.state hin
  rw [acceptWhenIdle_of_idle (pending_of_bufferFrame hframe hidle)] at hstep
  refine ⟨_, move_host (nextAccess_loadmsg_word hj) hstep, ⟨by simp, fun a => ?_, bufferFrame_memWrite hframe _ _⟩⟩
  have hwrite := msgByte_memWrite r.state (8 * r.answers.length) (bitsToBytes (loadWord m r.answers.length)) a
  rw [length_bitsToBytes, hbytes] at hwrite
  refine Eq.trans hwrite ?_
  by_cases hword : 8 * r.answers.length ≤ a ∧ a < 8 * r.answers.length + 8
  · rw [if_pos hword, getD_bitsToBytes_loadWord hj (by omega), if_pos (by omega), Nat.add_sub_of_le hword.1]
  · have hsame : a < 8 * r.answers.length ↔ a < 8 * (r.answers.length + 1) := by omega
    rw [if_neg hword, if_congr hsame rfl rfl]

/-- All the words. -/
theorem runPseudo_loadmsg_words {m : List Byte} {s : State} (hidle : s.pending = none)
    (hfit : m.length ≤ Config.msgbufBytes) {j : Nat} (hj : j ≤ wordsFor m.length) :
    ∃ r, runPseudo (.loadmsg m) (List.replicate j .host) ⟨s, []⟩ = .next r ∧ LoadedWords m s j r := by
  induction j with
  | zero => exact ⟨⟨s, []⟩, rfl, rfl, fun a => by simp, rfl⟩
  | succ j ih =>
    obtain ⟨r, hrun, hr⟩ := ih (by omega)
    obtain ⟨r', hmove, hr'⟩ := loadedWords_succ hidle hfit (by omega) hr
    exact ⟨r', runPseudo_replicate_succ hrun hmove, hr'⟩

/-- R131: `loadmsg m` leaves m in the buffer, zeros up to the end of its last word, and its length in MSG_LEN. -/
theorem runPseudo_loadmsg {m : List Byte} {s : State} (hidle : s.pending = none) (hfit : m.length ≤ Config.msgbufBytes) :
    ∃ r, runPseudo (.loadmsg m) (List.replicate (wordsFor m.length + 1) .host) ⟨s, []⟩ = .next r ∧
      ended (.loadmsg m) r = true ∧ memRead r.state 0 m.length = m ∧ r.state.msgLen.toNat = m.length ∧
      r.state = { s with msgbuf := r.state.msgbuf, msgLen := r.state.msgLen, answer := some .okay } ∧
      (∀ a, m.length ≤ a → a < 8 * wordsFor m.length → msgByte r.state a = 0) ∧
      ∀ a, 8 * wordsFor m.length ≤ a → msgByte r.state a = msgByte s a := by
  obtain ⟨r, hrun, hanswers, hbytes, hframe⟩ := runPseudo_loadmsg_words hidle hfit le_rfl
  have hstep : hostStep (.wr .msgLen (BitVec.ofNat 64 m.length)) r.state =
      .next (setAnswer .okay (loadMsgLen (BitVec.ofNat 64 m.length) r.state)) :=
    hostStep_wr_of_idle (loadMsgLen _) rfl (pending_of_bufferFrame hframe hidle)
  have hwords : m.length ≤ 8 * wordsFor m.length := by rw [wordsFor]; omega
  have hlen64 : m.length < 2 ^ 64 := by have := Config.msgbufBytes_le; omega
  have hbytes' : ∀ a, msgByte (setAnswer .okay (loadMsgLen (BitVec.ofNat 64 m.length) r.state)) a =
      if a < 8 * wordsFor m.length then m.getD a 0 else msgByte s a := hbytes
  refine ⟨_, runPseudo_replicate_succ hrun (move_host (nextAccess_loadmsg_length hanswers) hstep),
    ended_loadmsg (by simp [hanswers]), ?message, ?length, ?frame, fun a hm ha => ?zeros, fun a ha => ?after⟩
  case message =>
    refine List.ext_getElem (length_memRead _ _ _) fun j h1 h2 => ?_
    rw [getElem_memRead, hbytes', Nat.zero_add, if_pos (by omega), List.getD_eq_getElem m 0 h2]
  case length => exact (BitVec.toNat_ofNat m.length 64).trans (Nat.mod_eq_of_lt hlen64)
  case frame => exact setAnswer_loadMsgLen_of_bufferFrame hframe _
  case zeros => rw [hbytes', if_pos ha, List.getD_eq_default m 0 hm]
  case after => rw [hbytes', if_neg (by omega)]

/-! ## readmsg -/

theorem memRead_append (s : State) (a k n : Nat) : memRead s a (k + n) = memRead s a k ++ memRead s (a + k) n := by
  simp [memRead, List.range_add, Nat.add_assoc]

/-- The first `k` buffer words, as a read of each answers. -/
def wordAnswers (s : State) (k : Nat) : List Answer := (List.range k).map fun j => .okayData (bufferWord s (8 * j))

theorem wordAnswers_succ (s : State) (k : Nat) :
    wordAnswers s (k + 1) = wordAnswers s k ++ [Answer.okayData (bufferWord s (8 * k))] := by
  simp [wordAnswers, List.range_succ]

/-- The answers of the first `k` words carry the first 8k bytes of MSGBUF. -/
theorem flatMap_wordAnswers (s : State) (k : Nat) : (wordAnswers s k).flatMap answerBytes = memRead s 0 (8 * k) := by
  induction k with
  | zero => rfl
  | succ k ih =>
    have hword : answerBytes (.okayData (bufferWord s (8 * k))) = memRead s (8 * k) 8 :=
      bitsToBytes_bytesToBits_of_length_eight (length_memRead s (8 * k) 8)
    rw [wordAnswers_succ, List.flatMap_append, ih, List.flatMap_singleton, hword, Nat.mul_succ, memRead_append,
      Nat.zero_add]

/-- `readmsg` after MSG_LEN and `k` words. -/
theorem runPseudo_readmsg_words {s : State} (hidle : s.pending = none) (hfit : s.msgLen.toNat ≤ Config.msgbufBytes)
    {k : Nat} (hk : k ≤ wordsFor s.msgLen.toNat) : ∃ a,
    runPseudo .readmsg (List.replicate (k + 1) .host) ⟨s, []⟩ =
      .next ⟨setAnswer a s, Answer.okayData s.msgLen :: wordAnswers s k⟩ := by
  induction k with
  | zero =>
    have hread := move_host (p := .readmsg) (r := ⟨s, []⟩) rfl (hostStep_rd .msgLen s (.inl hidle))
    exact ⟨_, runPseudo_cons hread []⟩
  | succ k ih =>
    obtain ⟨a, hrun⟩ := ih (by omega)
    have hin : 8 * k + 8 ≤ Config.msgbufBytes := by
      have := wordsFor_le_msgbufBytes hfit
      omega
    have hnext : nextAccess .readmsg (Answer.okayData s.msgLen :: wordAnswers s k) = some (.rdbuf k) := by
      have hlen : (wordAnswers s k).length = k := by simp [wordAnswers]
      rw [nextAccess, nextRead]
      simp [hlen, show k < wordsFor s.msgLen.toNat by omega]
    have hread := move_host (r := ⟨setAnswer a s, Answer.okayData s.msgLen :: wordAnswers s k⟩) hnext
      (hostStep_rdbuf k (setAnswer a s) hin hidle)
    refine ⟨.okayData (bufferWord s (8 * k)), runPseudo_replicate_succ hrun ?_⟩
    rw [hread, wordAnswers_succ]
    rfl

/-- R131: the result of `readmsg` is the first MSG_LEN bytes of MSGBUF. -/
theorem runPseudo_readmsg {s : State} (hidle : s.pending = none) (hfit : s.msgLen.toNat ≤ Config.msgbufBytes) :
    ∃ r, runPseudo .readmsg (List.replicate (wordsFor s.msgLen.toNat + 1) .host) ⟨s, []⟩ = .next r ∧
      ended .readmsg r = true ∧ readmsgResult r.answers = memRead s 0 s.msgLen.toNat ∧
      r.state = { s with answer := r.state.answer } := by
  obtain ⟨a, hrun⟩ := runPseudo_readmsg_words hidle hfit le_rfl
  refine ⟨_, hrun, ?ended, ?result, rfl⟩
  case ended => simp [ended, nextAccess, nextRead, wordAnswers]
  case result =>
    have hwords : s.msgLen.toNat ≤ 8 * wordsFor s.msgLen.toNat := by rw [wordsFor]; omega
    rw [readmsgResult, flatMap_wordAnswers, take_memRead s 0 hwords]

/-! ## The obligation -/

/-- Settles O41: each pseudo-instruction by its own run. -/
theorem pseudoInstructionsRunAsTheyExpand : Obligations.PseudoInstructionsRunAsTheyExpand := by
  intro s
  refine ⟨runPseudo_ack s, fun ms => ?wait, fun i k hidle => runPseudo_run hidle i k,
    fun m hidle hfit => runPseudo_loadmsg hidle hfit, runPseudo_readmsg⟩
  have hstart : WaitInv ⟨s, []⟩ := .inl (by simp [BusyPolls])
  obtain ⟨r, hrun, hprogress⟩ := runPseudo_wait ms hstart
  refine ⟨r, hrun, fun j => answers_of_waitInv hprogress.inv, waitInv_of_ended hprogress.inv, fun a b hms => ?_⟩
  subst hms
  exact ended_of_runPseudo_wait hstart hrun

end Sys2Proof.Machine
end
